-- ==== Sys2Proof/Word.lean ====
section
/-! DEFINITION. The widths of the block's values (00_scope.md R7, R9, R10) and the two names of its arrays. -/

namespace Sys2Proof

/-- A byte: an array entry, a received or transmitted byte, the value of the cursor (R10). -/
abbrev Byte := BitVec 8

/-- An index: a byte used to select an array entry (R10). -/
abbrev Index := BitVec 8

/-- The 11-bit event word `ev[10:0]` (R57). -/
abbrev EvWord := BitVec 11

/-- The 18-bit host word `h[17:0]` (R63). -/
abbrev HwWord := BitVec 18

/-- The two storage spaces, the `S` of `MemRead(S, i, 1)` (R12, R38). -/
inductive ArrayId where
  /-- `WM`, WriteMemory: the master writes into it (R18). -/
  | wm
  /-- `RM`, ReadMemory: the master reads from it (R19). -/
  | rm
deriving DecidableEq, Repr

end Sys2Proof
end

