-- ==== Sys2Proof/Config.lean ====
section
/-! DEFINITION. The block's parameters (00_scope.md R7) and its free values: what the spec leaves open is a constant
without a body, so that nothing can be proved of its value. -/

namespace Sys2Proof.Config

/-- `MEM_SIZE`: entries in `WM` and in `RM` (R7). -/
def memSize : Nat := 256

/-- `TERMINAL`: the terminal index, `MEM_SIZE - 1` (R7). -/
def terminal : Index := 255#8

/-- `DEFAULT_TX_OFFSET`: the index the transmit path uses when the cursor is unset (R7, R82). -/
def defaultTxOffset : Index := 0#8

/-- `N_EVENT_KINDS` (R7). -/
def nEventKinds : Nat := 5

/-- The two values of the open parameter `MEM_INIT` (R7, R34). -/
inductive MemInit where
  /-- Every entry of both arrays is zero after reset. -/
  | zero
  /-- Every entry holds any byte after reset, independently of the others. -/
  | unspecified
deriving DecidableEq, Repr, Inhabited

/-- `MEM_INIT` (R7): the build-time choice the spec leaves OPEN. Free value, log entry 3. -/
opaque memInit : MemInit

/-- The byte `WM[i]` holds after reset when `MEM_INIT = unspecified` (R34, R133). Free value, log entry 3. -/
opaque wmGarbage : Index → Byte

/-- The byte `RM[i]` holds after reset when `MEM_INIT = unspecified` (R34, R133). Free value, log entry 3. -/
opaque rmGarbage : Index → Byte

/-- The byte `TXD` holds after reset: "unspecified (any byte)" (R34). Free value, log entry 4. -/
opaque txdReset : Byte

end Sys2Proof.Config
end

