-- ==== Sys2Proof/Syntax.lean ====
section
/-! DEFINITION. What the machine executes: one event or one host byte access a step (00_scope.md R14), and the words
that present them at the block's two input boundaries (30_encoding.md R55, R57, R63). -/

namespace Sys2Proof

/-- The nine instructions of the opcode table: five events (R56) and four host operations (R64). The table's three
reserved-kind rows carry the mnemonic `OTHER` and are words of `other` (R60). -/
inductive Instr where
  /-- `ADDR_W`, AddressedAsReceiver (R74). -/
  | addrW
  /-- `RXBYTE v`, ByteReceived(v) (R75). -/
  | rxbyte (v : Byte)
  /-- `ADDR_R`, AddressedAsTransmitter (R80). -/
  | addrR
  /-- `TXREQ`, ByteRequested (R81). -/
  | txreq
  /-- `OTHER`, Other (R87). -/
  | other
  /-- `HRD_WM i`: the host reads `WM[i]` (R92). -/
  | hrdWm (i : Index)
  /-- `HWR_WM i, d`: the host writes `WM[i]` (R93). -/
  | hwrWm (i : Index) (d : Byte)
  /-- `HRD_RM i`: the host reads `RM[i]` (R94). -/
  | hrdRm (i : Index)
  /-- `HWR_RM i, d`: the host writes `RM[i]` (R95). -/
  | hwrRm (i : Index) (d : Byte)
deriving DecidableEq, Repr

/-- The two input boundaries; a word of the one is never confused with a word of the other (R55, R66). -/
inductive Port where
  /-- Event input, from the bus controller: EV words of 11 bits (R57). -/
  | event
  /-- Host port: HW words of 18 bits (R63). -/
  | host
deriving DecidableEq, Repr

/-- A word standing at the boundary it arrives at (R66). -/
inductive PortWord where
  | ev (w : EvWord)
  | hw (w : HwWord)
deriving DecidableEq, Repr

/-- The boundary a word stands at. -/
def PortWord.port : PortWord → Port
  | .ev _ => .event
  | .hw _ => .host

/-- A word read as an unsigned number, bit 0 least significant (R9). -/
def PortWord.number : PortWord → Nat
  | .ev w => w.toNat
  | .hw w => w.toNat

/-- How many bits a word has at each boundary (R57, R63). -/
def Port.width : Port → Nat
  | .event => 11
  | .host => 18

/-- The mnemonic, letter for letter as spec/opcode_table.json has it (R56, R64). -/
def Instr.mnemonic : Instr → String
  | .addrW => "ADDR_W"
  | .rxbyte _ => "RXBYTE"
  | .addrR => "ADDR_R"
  | .txreq => "TXREQ"
  | .other => "OTHER"
  | .hrdWm _ => "HRD_WM"
  | .hwrWm _ _ => "HWR_WM"
  | .hrdRm _ => "HRD_RM"
  | .hwrRm _ _ => "HWR_RM"

/-- The boundary an instruction is presented at: events from the bus controller, host operations at the host port. -/
def Instr.port : Instr → Port
  | .addrW | .rxbyte _ | .addrR | .txreq | .other => .event
  | .hrdWm _ | .hwrWm _ _ | .hrdRm _ | .hwrRm _ _ => .host

end Sys2Proof
end

