-- ==== Sys2Proof/WellFormed.lean ====
section
/-! DEFINITION. Well-formedness. The operand types leave no ill-formed instruction (every value is a legal offset,
every index is legal: R60, R64, R78); what can be ill-formed is a NUMBER offered at a boundary, too wide for the word.
Which words are canonical (R59) is said in Decode.lean, beside the fields. -/

namespace Sys2Proof

/-- Every instruction is well-formed: "all 2048 words decode", "every 18-bit word is a valid host access" (R60, R64). -/
def Instr.wf : Instr → Bool
  | .addrW => true
  | .rxbyte _ => true
  | .addrR => true
  | .txreq => true
  | .other => true
  | .hrdWm _ => true
  | .hwrWm _ _ => true
  | .hrdRm _ => true
  | .hwrRm _ _ => true

/-- The number fits the word of the boundary it is offered at: 11 bits for an event, 18 for a host access (R57, R63). -/
def Port.wfNumber (p : Port) (n : Nat) : Bool := n < 2 ^ p.width

end Sys2Proof
end

