-- ==== Sys2Proof/Decode.lean ====
section
/-! DEFINITION. The decoder of both boundaries, total (30_encoding.md R57 to R60, R63, R64, R67), the encoder, and the
opcode table as rows (R72). -/

namespace Sys2Proof

/-- The `kind` field, `ev[10:8]` (R57). -/
def evKind (w : EvWord) : BitVec 3 := w.extractLsb' 8 3

/-- The `value` field, `ev[7:0]` (R57). -/
def evValue (w : EvWord) : Byte := w.extractLsb' 0 8

/-- The `sel` field, `h[17]`: 0 = `WM`, 1 = `RM` (R63). -/
def hwSel (w : HwWord) : BitVec 1 := w.extractLsb' 17 1

/-- The `wr` field, `h[16]`: 0 = read, 1 = write (R63). -/
def hwWr (w : HwWord) : BitVec 1 := w.extractLsb' 16 1

/-- The `index` field, `h[15:8]` (R63). -/
def hwIndex (w : HwWord) : Index := w.extractLsb' 8 8

/-- The `data` field, `h[7:0]` (R63). -/
def hwData (w : HwWord) : Byte := w.extractLsb' 0 8

/-- The event word with the given fields, `kind ++ value` (R57). -/
def packEv (kind : BitVec 3) (value : Byte) : EvWord := kind ++ value

/-- The host word with the given fields, `sel ++ wr ++ index ++ data` (R63). -/
def packHw (sel wr : BitVec 1) (index : Index) (data : Byte) : HwWord := sel ++ wr ++ index ++ data

/-- `decode_ev` (R58 to R60): the kind codes 1 to 5, and 0, 6, 7, which name no event and decode as `OTHER`. -/
def decodeEv (w : EvWord) : Instr :=
  match (evKind w).toNat with
  | 1 => .addrW
  | 2 => .rxbyte (evValue w)
  | 3 => .addrR
  | 4 => .txreq
  | 5 => .other
  | 0 | 6 | 7 | _ => .other

/-- `decode_h` (R63, R64): all four combinations of `sel` and `wr` are legal; `data` is ignored on a read. -/
def decodeHw (w : HwWord) : Instr :=
  match (hwSel w).toNat, (hwWr w).toNat with
  | 0, 0 => .hrdWm (hwIndex w)
  | 0, _ => .hwrWm (hwIndex w) (hwData w)
  | _, 0 => .hrdRm (hwIndex w)
  | _, _ => .hwrRm (hwIndex w) (hwData w)

/-- The decoder, total: there is no illegal word (R60, R64, R67). It does not depend on the state (R66). -/
def decode : PortWord → Instr
  | .ev w => decodeEv w
  | .hw w => decodeHw w

/-- The encoder: each instruction's canonical word (R59, R67; R74, R75, R80, R81, R87, R92 to R95 name the words). -/
def encode : Instr → PortWord
  | .addrW => .ev (packEv 1#3 0#8)
  | .rxbyte v => .ev (packEv 2#3 v)
  | .addrR => .ev (packEv 3#3 0#8)
  | .txreq => .ev (packEv 4#3 0#8)
  | .other => .ev (packEv 5#3 0#8)
  | .hrdWm i => .hw (packHw 0#1 0#1 i 0#8)
  | .hwrWm i d => .hw (packHw 0#1 1#1 i d)
  | .hrdRm i => .hw (packHw 1#1 0#1 i 0#8)
  | .hwrRm i d => .hw (packHw 1#1 1#1 i d)

/-- The canonical event words: `value = 0` where it is ignored, `OTHER` as `kind = 5` (R59, R67). -/
def evCanonical (w : EvWord) : Bool :=
  evKind w == 2#3 ||
    (evValue w == 0#8 && (evKind w == 1#3 || evKind w == 3#3 || evKind w == 4#3 || evKind w == 5#3))

/-- The canonical host words: `data = 0` on a read, where it is ignored (R63); these are the words R92 and R94 name. -/
def hwCanonical (w : HwWord) : Bool := hwWr w == 1#1 || hwData w == 0#8

/-- The canonical words of either boundary. -/
def PortWord.canonical : PortWord → Bool
  | .ev w => evCanonical w
  | .hw w => hwCanonical w

/-- Why a number offered at a boundary is no word of that boundary. -/
inductive DecodeError where
  /-- A number of more than 11 bits at the event input (R57). -/
  | eventWordTooWide
  /-- A number of more than 18 bits at the host port (R63). -/
  | hostWordTooWide
deriving DecidableEq, Repr

/-- A number taken as a word of a boundary, or rejected by name when it has bits the word does not have. -/
def readPort (p : Port) (n : Nat) : Except DecodeError PortWord :=
  match p with
  | .event => if Port.event.wfNumber n then .ok (.ev (BitVec.ofNat 11 n)) else .error .eventWordTooWide
  | .host => if Port.host.wfNumber n then .ok (.hw (BitVec.ofNat 18 n)) else .error .hostWordTooWide

/-- A number at a boundary, decoded (total; rejected by name when it is no word). -/
def decodeNumber (p : Port) (n : Nat) : Except DecodeError Instr := (readPort p n).map decode

/-- Which boundary a row of the opcode table belongs to, by the whole bytes its width takes: EV rows (11 bits) take
16, HW rows (18 bits) take 24. DESIGN CHOICE, log entry 6. -/
def portOfWidth (nbits : Nat) : Port := if nbits ≤ 16 then .event else .host

/-- The instruction the decoder reads from a table row's word (bit 0 least significant). -/
def decodeTableWord (nbits w : Nat) : Option Instr := (decodeNumber (portOfWidth nbits) w).toOption

/-- A row of the opcode table: the words `n` of its boundary with `n &&& mask = pattern` (R72). -/
structure OpcodeRow where
  mnemonic : String
  port : Port
  pattern : Nat
  mask : Nat
deriving DecidableEq, Repr

/-- Whether a word is one of a row's words. -/
def OpcodeRow.hasWord (r : OpcodeRow) (w : PortWord) : Bool :=
  r.port == w.port && w.number &&& r.mask == r.pattern

/-- The event rows of spec/opcode_table.json: one per event kind, one per reserved kind code (R72). -/
def eventRows : List OpcodeRow :=
  [⟨"ADDR_W", .event, 0x100, 0x700⟩, ⟨"RXBYTE", .event, 0x200, 0x700⟩, ⟨"ADDR_R", .event, 0x300, 0x700⟩,
   ⟨"TXREQ", .event, 0x400, 0x700⟩, ⟨"OTHER", .event, 0x500, 0x700⟩, ⟨"OTHER", .event, 0x000, 0x700⟩,
   ⟨"OTHER", .event, 0x600, 0x700⟩, ⟨"OTHER", .event, 0x700, 0x700⟩]

/-- The host rows of spec/opcode_table.json: one per host operation (R72). -/
def hostRows : List OpcodeRow :=
  [⟨"HRD_WM", .host, 0x00000, 0x30000⟩, ⟨"HWR_WM", .host, 0x10000, 0x30000⟩,
   ⟨"HRD_RM", .host, 0x20000, 0x30000⟩, ⟨"HWR_RM", .host, 0x30000, 0x30000⟩]

/-- The twelve rows of spec/opcode_table.json (R72). -/
def opcodeTable : List OpcodeRow := eventRows ++ hostRows

end Sys2Proof
end

