-- ==== Sys2Proof/Machine/State.lean ====
section
/-! DEFINITION. The state: the seven items of 10_state.md R17, and two fields of the model's own (the words still to
arrive, and what the host port returned), which R32, R14 and R65 leave outside the block. -/

namespace Sys2Proof.Machine

/-- One array as the cells written since reset, at most one a index, indices rising; an index that is not listed has
not been written since reset (70_reset_and_hazards.md R133's "never written" mark). Log entry 3. -/
abbrev Memory := List Host.Cell

/-- `PHASE`, the values of `PH` (R10, R22). -/
inductive Phase where
  /-- Not addressed since reset or since the last Other path. -/
  | idle
  /-- The last addressing event was AddressedAsReceiver. -/
  | rx
  /-- The last addressing event was AddressedAsTransmitter. -/
  | tx
deriving DecidableEq, Repr

/-- `ACKDEC`, the values of `ACKARM` (R10, R24). -/
inductive AckDec where
  | ack
  | nack
deriving DecidableEq, Repr

/-- The complete state (R17), then the model's own two fields. -/
structure State where
  /-- `WM`, WriteMemory (R18). -/
  wm : Memory
  /-- `RM`, ReadMemory (R19). -/
  rm : Memory
  /-- `CV`: the cursor is set (R21). -/
  cv : Bool
  /-- `CA`: the cursor's value (R21). -/
  ca : Byte
  /-- `PH`: the phase (R22). -/
  ph : Phase
  /-- `ACKARM`: the acknowledge decision armed for the next byte (R24). -/
  ackarm : AckDec
  /-- `TXD`: the outbound byte register (R25). -/
  txd : Byte
  /-- MODEL'S OWN: what the latest host operation returned, a byte for a read and nothing for a write (R65); nothing
  before the first one. No rule of the block reads it. Log entry 2. -/
  hostResult : Option Byte
  /-- MODEL'S OWN: the rest of the trace (R14), the words the environment has still to present, in order; R32 makes it
  a parameter of the run. No instruction reads or writes it. Log entry 1. -/
  trace : List PortWord
deriving DecidableEq, Repr

/-- The block raises no exception, trap or fault, ever (60_exceptions.md R114): no reason exists, so none is raised. -/
inductive Fault
deriving DecidableEq, Repr

/-- Why an instruction is not run. -/
inductive Refusal where
  /-- Raised by an arm of `exec` whose instruction has no meaning yet; safe. In this model no arm raises it. -/
  | notModelled (mnemonic : String)
deriving DecidableEq, Repr

/-- The reset state (10_state.md R34, 70_reset_and_hazards.md R130): cursor unset, `PH = IDLE`, `ACKARM = ACK`, no
array entry written yet (what such an entry reads as is `unwrittenByte`, from `MEM_INIT`), `TXD` unspecified, no host
operation done and no word presented. Log entries 1 to 5. -/
def State.reset : State where
  wm := []
  rm := []
  cv := false
  ca := 0#8
  ph := .idle
  ackarm := .ack
  txd := Config.txdReset
  hostResult := none
  trace := []

end Sys2Proof.Machine
end

