-- ==== Sys2Proof/Machine/Ops.lean ====
section
/-! DEFINITION. The named operations over the arrays and the registers: `MemRead`, `MemWrite` (00_scope.md R12), the
register assignments `NAME <- v` (R11), the successor (R15), the Other path (R86) and re-addressing (R121). -/

namespace Sys2Proof.Machine

/-! ### The arrays -/

/-- What was last written at an index, if anything was since reset. -/
def Memory.get? : Memory → Nat → Option Byte
  | [], _ => none
  | (a, w) :: m, i => if a = i then some w else Memory.get? m i

/-- The memory with a byte written at an index, keeping the indices rising. -/
def Memory.put : Memory → Nat → Byte → Memory
  | [], i, v => [(i, v)]
  | (a, w) :: m, i, v =>
    if i < a then (i, v) :: (a, w) :: m
    else if i = a then (i, v) :: m
    else (a, w) :: Memory.put m i v

/-- The indices listed rise strictly from `lo` on and are indices of the array. -/
def Memory.wfFrom : Nat → Memory → Bool
  | _, [] => true
  | lo, (a, _) :: m => decide (lo ≤ a) && decide (a < Config.memSize) && Memory.wfFrom (a + 1) m

/-- The canonical form: strictly rising indices in 0..255 (R38, R33 I1). Log entry 3. -/
def Memory.wf (m : Memory) : Bool := Memory.wfFrom 0 m

/-- The reset contents under a value of `MEM_INIT`: zero, or a byte nothing is known of (R34, R133). -/
def resetByteFor (k : Config.MemInit) (S : ArrayId) (i : Index) : Byte :=
  match k, S with
  | .zero, _ => 0#8
  | .unspecified, .wm => Config.wmGarbage i
  | .unspecified, .rm => Config.rmGarbage i

/-- What an index nothing has written since reset reads as: its reset contents, under whichever `MEM_INIT` the
implementation has (R34, R48). Log entry 3. -/
def unwrittenByte (S : ArrayId) (i : Index) : Byte := resetByteFor Config.memInit S i

/-- The array of the given name. -/
def State.array (s : State) : ArrayId → Memory
  | .wm => s.wm
  | .rm => s.rm

/-- The state with an array replaced. -/
def State.setArray (s : State) (S : ArrayId) (m : Memory) : State :=
  match S with
  | .wm => { s with wm := m }
  | .rm => { s with rm := m }

/-- `MemRead(S, i, 1)`: total, never faults (R12, R44). -/
def memRead (S : ArrayId) (i : Index) (s : State) : Byte :=
  match (s.array S).get? i.toNat with
  | some v => v
  | none => unwrittenByte S i

/-- `MemWrite(S, i, 1, v)`: total, never faults (R12, R44). -/
def memWrite (S : ArrayId) (i : Index) (v : Byte) (s : State) : State :=
  s.setArray S ((s.array S).put i.toNat v)

/-! ### The registers -/

/-- `cursor <- c` (R11): an unset cursor has `CA = 0` (R21). -/
def State.setCursor (s : State) (c : Option Byte) : State :=
  match c with
  | none => { s with cv := false, ca := 0#8 }
  | some v => { s with cv := true, ca := v }

/-- `PH <- p`. -/
def State.setPh (s : State) (p : Phase) : State := { s with ph := p }

/-- `ACKARM <- d`. -/
def State.setAck (s : State) (d : AckDec) : State := { s with ackarm := d }

/-- `TXD <- v`. -/
def State.setTxd (s : State) (v : Byte) : State := { s with txd := v }

/-- `result <- r` of the host port (R65). -/
def State.setHostResult (s : State) (r : Option Byte) : State := { s with hostResult := r }

/-- The rest of the trace, replaced (the model's own). -/
def State.setTrace (s : State) (t : List PortWord) : State := { s with trace := t }

/-! ### Arithmetic -/

/-- `succ(i) = (i + 1) mod 256`, the only arithmetic of the block (R15, R99). -/
def succ (i : Index) : Index := BitVec.ofNat 8 ((i.toNat + 1) % Config.memSize)

/-! ### The Other path and re-addressing -/

/-- `OTHER_PATH` (42_other_event.md R86), the block's one analogue of taking an exception (60_exceptions.md R120): it
saves nothing, clears the cursor, enters `IDLE`, re-arms `ACK`, and leaves the arrays and `TXD` alone. -/
def otherPath (s : State) : State := ((s.setCursor none).setPh .idle).setAck .ack

/-- Re-addressing, the one analogue of returning from an exception (R121): an addressing event enters its phase and
arms `ACK`; nothing is restored. What becomes of the cursor is the event's own (R74, R80). -/
def readdress (p : Phase) (s : State) : State := (s.setPh p).setAck .ack

end Sys2Proof.Machine
end

