-- ==== Sys2Proof/Machine/Operands.lean ====
section
/-! DEFINITION. The one addressing mode (44_transactions.md R102): the cursor, post-incremented; on the transmit path
alone, index 0 when the cursor is unset. -/

namespace Sys2Proof.Machine

/-- The pair (`CV`, `CA`) read as an option (R11, R21). -/
def State.cursor (s : State) : Option Byte := if s.cv then some s.ca else none

/-- The index an accepted `TXREQ` reads: the cursor, or `DEFAULT_TX_OFFSET` when it is unset (R81, R82). -/
def txIndex (s : State) : Index :=
  match s.cursor with
  | some idx => idx
  | none => Config.defaultTxOffset

/-- Post-increment: `next = succ(idx)`; `cursor <- Some(next)` (R75, R81, R102). -/
def advanceCursor (idx : Index) (s : State) : State := s.setCursor (some (succ idx))

end Sys2Proof.Machine
end

