-- ==== Sys2Proof/Machine/Flags.lean ====
section
/-! DEFINITION. The acknowledge decision, the phase test, and which event fits which state (10_state.md R28,
42_other_event.md R88). -/

namespace Sys2Proof.Machine

/-- `if next = 255: ACKARM <- NACK else: ACKARM <- ACK` (R75, R81): the decision an accepted data event arms. -/
def ackFor (next : Index) : AckDec := if next = Config.terminal then .nack else .ack

/-- `RXBYTE` fits: `PH = RX and ACKARM = ACK` (R75, R88). -/
def fitsRx (s : State) : Bool := s.ph == .rx && s.ackarm == .ack

/-- `TXREQ` fits: `PH = TX and ACKARM = ACK` (R81, R88). -/
def fitsTx (s : State) : Bool := s.ph == .tx && s.ackarm == .ack

/-- The fit table (R88): the addressing events and `OTHER` fit every state; every host operation is allowed (R53). -/
def fits : Instr → State → Bool
  | .addrW, _ => true
  | .rxbyte _, s => fitsRx s
  | .addrR, _ => true
  | .txreq, s => fitsTx s
  | .other, _ => true
  | .hrdWm _, _ => true
  | .hwrWm _ _, _ => true
  | .hrdRm _, _ => true
  | .hwrRm _ _, _ => true

/-- The index of `WM` an `RXBYTE` stores to in this state: the cursor in the data case, none in the offset case and
when the event is rejected (R75, R89). -/
def rxStoreIndex? (s : State) : Option Index := if fitsRx s then s.cursor else none

end Sys2Proof.Machine
end

