-- ==== Sys2Proof/Machine/HostPort.lean ====
section
/-! DEFINITION. The host port: `HRD_WM`, `HWR_WM`, `HRD_RM`, `HWR_RM` (43_host_port.md). -/

namespace Sys2Proof.Machine

/-- A host read: returns the entry, changes no state of the block (R92, R94). -/
def hostRead (S : ArrayId) (i : Index) (s : State) : State := s.setHostResult (some (memRead S i s))

/-- A host write: writes the entry, returns nothing (R93, R95). -/
def hostWrite (S : ArrayId) (i : Index) (d : Byte) (s : State) : State := (memWrite S i d s).setHostResult none

/-- `HRD_WM i` (R92). -/
def execHrdWm (i : Index) (s : State) : Host.Outcome State Fault Refusal := .next (hostRead .wm i s)

/-- `HWR_WM i, d` (R93): admitted, although not the intended data flow (conflict C3). -/
def execHwrWm (i : Index) (d : Byte) (s : State) : Host.Outcome State Fault Refusal := .next (hostWrite .wm i d s)

/-- `HRD_RM i` (R94). -/
def execHrdRm (i : Index) (s : State) : Host.Outcome State Fault Refusal := .next (hostRead .rm i s)

/-- `HWR_RM i, d` (R95): the only way `RM` ever changes. -/
def execHwrRm (i : Index) (d : Byte) (s : State) : Host.Outcome State Fault Refusal := .next (hostWrite .rm i d s)

end Sys2Proof.Machine
end

