-- ==== Sys2Proof/Machine/OtherEvent.lean ====
section
/-! DEFINITION. The `OTHER` event (42_other_event.md). -/

namespace Sys2Proof.Machine

/-- `OTHER` (R87): `do OTHER_PATH`, in every state. -/
def execOther (s : State) : Host.Outcome State Fault Refusal :=
  .next (otherPath s)

end Sys2Proof.Machine
end

