-- ==== Sys2Proof/Machine/Receive.lean ====
section
/-! DEFINITION. The receive path: `ADDR_W`, `RXBYTE` (40_receive_path.md). -/

namespace Sys2Proof.Machine

/-- `ADDR_W` (R74): accepted in every state; the cursor is cleared, the phase is `RX`, `ACK` is armed. -/
def execAddrW (s : State) : Host.Outcome State Fault Refusal :=
  .next (readdress .rx (s.setCursor none))

/-- `RXBYTE v` (R75): rejected into the Other path when it does not fit; else the offset case with the cursor unset,
the data case with the cursor set. -/
def execRxbyte (v : Byte) (s : State) : Host.Outcome State Fault Refusal :=
  if fitsRx s then
    match s.cursor with
    | none => .next ((s.setCursor (some v)).setAck .ack)
    | some idx => .next ((advanceCursor idx (memWrite .wm idx v s)).setAck (ackFor (succ idx)))
  else .next (otherPath s)

end Sys2Proof.Machine
end

