-- ==== Sys2Proof/Machine/Transmit.lean ====
section
/-! DEFINITION. The transmit path: `ADDR_R`, `TXREQ` (41_transmit_path.md). -/

namespace Sys2Proof.Machine

/-- `ADDR_R` (R80): accepted in every state; the phase is `TX`, `ACK` is armed, the cursor is left as it stands. -/
def execAddrR (s : State) : Host.Outcome State Fault Refusal :=
  .next (readdress .tx s)

/-- `TXREQ` (R81): rejected into the Other path when it does not fit; else `RM` at the cursor (index 0 when it is
unset) goes to `TXD` and the cursor advances. -/
def execTxreq (s : State) : Host.Outcome State Fault Refusal :=
  if fitsTx s then
    .next ((advanceCursor (txIndex s) (s.setTxd (memRead .rm (txIndex s) s))).setAck (ackFor (succ (txIndex s))))
  else .next (otherPath s)

end Sys2Proof.Machine
end

