-- ==== Sys2Proof/Machine/Dispatch.lean ====
section
/-! DEFINITION. One arm an instruction. -/

namespace Sys2Proof.Machine

def exec (i : Instr) (s : State) : Host.Outcome State Fault Refusal :=
  match i with
  | .addrW => Sys2Proof.Machine.execAddrW s
  | .rxbyte v => Sys2Proof.Machine.execRxbyte v s
  | .addrR => Sys2Proof.Machine.execAddrR s
  | .txreq => Sys2Proof.Machine.execTxreq s
  | .other => Sys2Proof.Machine.execOther s
  | .hrdWm x => Sys2Proof.Machine.execHrdWm x s
  | .hwrWm x d => Sys2Proof.Machine.execHwrWm x d s
  | .hrdRm x => Sys2Proof.Machine.execHrdRm x s
  | .hwrRm x d => Sys2Proof.Machine.execHwrRm x d s

end Sys2Proof.Machine
end

