-- ==== Sys2Proof/Machine/Input.lean ====
section
/-! DEFINITION. How a word comes to the block: the environment presents the next word of the trace (00_scope.md R14,
10_state.md R32). Log entries 1 and 7. -/

namespace Sys2Proof.Machine

/-- The word that arrives next and the rest of the trace, if the environment has one to present. -/
def nextWord (s : State) : Option (PortWord × List PortWord) :=
  match s.trace with
  | [] => none
  | w :: rest => some (w, rest)

/-- The state with one more word presented before all those still to come. -/
def present (w : PortWord) (s : State) : State := s.setTrace (w :: s.trace)

/-- The state with an opcode-table word presented next; a number that is no word of its boundary presents nothing. -/
def presentTableWord (nbits w : Nat) (s : State) : State :=
  match readPort (portOfWidth nbits) w with
  | .ok p => present p s
  | .error _ => s

end Sys2Proof.Machine
end

