-- ==== Sys2Proof/Machine/Step.lean ====
section
/-! DEFINITION. One step: the complete handling of the next event or host access (00_scope.md R6, R14). -/

namespace Sys2Proof.Machine

/-- Take the next word of the trace, decode it, run it to completion. With no word presented the block waits, and its
state stays as it is (70_reset_and_hazards.md R131; 92_eei_decisions.md D20). -/
def step (s : State) : Host.Outcome State Fault Refusal :=
  match nextWord s with
  | some (w, rest) => exec (decode w) (s.setTrace rest)
  | none => .next s

/-- `s` with the opcode-table word `w` presented so that the very next step runs it. Log entry 7. -/
def State.withFetchWord (s : State) (nbits w : Nat) : State := presentTableWord nbits w s

end Sys2Proof.Machine
end

