-- ==== Sys2Proof/Machine/Views.lean ====
section
/-! DEFINITION. What the agents see of the state, and the names the spec gives its regions: the four state names
(10_state.md R23), the seven state classes (42_other_event.md R88), the outputs (30_encoding.md R61) and the three error
classes (60_exceptions.md R115). None of it is state. -/

namespace Sys2Proof.Machine

/-- The four state names of the source (R23). -/
inductive EngineState where
  | idle
  | awaitingOffset
  | writing
  | reading
deriving DecidableEq, Repr

/-- The views of (`PH`, `CV`) that the four names are (R23). -/
def State.engineState (s : State) : EngineState :=
  match s.ph, s.cv with
  | .idle, _ => .idle
  | .rx, false => .awaitingOffset
  | .rx, true => .writing
  | .tx, _ => .reading

/-- The seven state classes, the rows of R88's second table. -/
inductive StateClass where
  /-- `IDLE` -/
  | idle
  /-- `RX`, unset -/
  | rxUnset
  /-- `RX`, `Some(i)`, terminal not reached -/
  | rxSet
  /-- `RX`, `Some(255)`, terminal reached -/
  | rxTerminal
  /-- `TX`, unset -/
  | txUnset
  /-- `TX`, `Some(i)`, terminal not reached -/
  | txSet
  /-- `TX`, `Some(255)`, terminal reached -/
  | txTerminal
deriving DecidableEq, Repr

/-- Whether a state is of a class, read off the row's own words (R88; terminal reached means `ACKARM = NACK`). -/
def StateClass.holds (c : StateClass) (s : State) : Bool :=
  match c with
  | .idle => s.ph == .idle && s.cursor == none && s.ackarm == .ack
  | .rxUnset => s.ph == .rx && s.cursor == none && s.ackarm == .ack
  | .rxSet => s.ph == .rx && s.cursor.isSome && s.ackarm == .ack
  | .rxTerminal => s.ph == .rx && s.cursor == some 255#8 && s.ackarm == .nack
  | .txUnset => s.ph == .tx && s.cursor == none && s.ackarm == .ack
  | .txSet => s.ph == .tx && s.cursor.isSome && s.ackarm == .ack
  | .txTerminal => s.ph == .tx && s.cursor == some 255#8 && s.ackarm == .nack

/-- The acknowledge decision as the bus controller reads it: `ACK` is 1, `NACK` is 0 (R61). -/
def AckDec.code : AckDec → BitVec 1
  | .ack => 1#1
  | .nack => 0#1

/-- `out = (ACKARM', TXD')`, the outputs visible to the bus controller after a step (R14, R61). -/
def State.busOut (s : State) : BitVec 1 × Byte := (s.ackarm.code, s.txd)

/-- An event that carries or requests a data byte. -/
def isData : Instr → Bool
  | .rxbyte _ => true
  | .txreq => true
  | .addrW | .addrR | .other | .hrdWm _ | .hwrWm _ _ | .hrdRm _ | .hwrRm _ _ => false

/-- A bus-controller event, as opposed to a host operation (R55). -/
def isEvent (i : Instr) : Bool := i.port == .event

/-- A data event that is accepted: it fits the state (R88, glossary). -/
def accepted (i : Instr) (s : State) : Bool := isData i && fits i s

/-- A data event that is rejected: it falls back to the Other path (R88, R89, glossary). -/
def rejected (i : Instr) (s : State) : Bool := isData i && !fits i s

/-- The index an accepted data event that touches an array uses (R102): the cursor of an `RXBYTE` in its data case,
the read index of a `TXREQ`. -/
def dataIndex? (i : Instr) (s : State) : Option Index :=
  match i with
  | .rxbyte _ => rxStoreIndex? s
  | .txreq => if fitsTx s then some (txIndex s) else none
  | .addrW | .addrR | .other | .hrdWm _ | .hwrWm _ _ | .hrdRm _ | .hwrRm _ _ => none

/-- Error class 1, unexpected-event (R115): `OTHER`, or a data event in the wrong phase. -/
def unexpectedEvent (i : Instr) (s : State) : Bool :=
  match i with
  | .other => true
  | .rxbyte _ => s.ph != .rx
  | .txreq => s.ph != .tx
  | .addrW | .addrR | .hrdWm _ | .hwrWm _ _ | .hrdRm _ | .hwrRm _ _ => false

/-- Error class 2, buffer-boundary (R115): an accepted data event that uses index 254. -/
def bufferBoundary (i : Instr) (s : State) : Bool := dataIndex? i s == some 254#8

/-- Error class 3, stale-offset (R115): an accepted `TXREQ` with the cursor unset. -/
def staleOffset (i : Instr) (s : State) : Bool :=
  match i with
  | .txreq => fitsTx s && s.cursor == none
  | .addrW | .rxbyte _ | .addrR | .other | .hrdWm _ | .hwrWm _ _ | .hrdRm _ | .hwrRm _ _ => false

end Sys2Proof.Machine
end

