-- ==== Sys2Proof/Machine/Trace.lean ====
section
/-! DEFINITION. Traces (00_scope.md R14): the run of a finite sequence of instructions, the pseudo-instructions of
30_encoding.md R71, and the functions over a trace that the laws of 44_transactions.md speak of. -/

namespace Sys2Proof.Machine

/-- The run of a trace: its steps one after the other, in one total order (R14, R47). -/
def runTrace : List Instr → State → Host.Outcome State Fault Refusal
  | [], s => .next s
  | i :: is, s =>
    match exec i s with
    | .next t => runTrace is t
    | .fault r => .fault r
    | .refused r => .refused r

/-! ### Pseudo-instructions (R71) -/

/-- `SETOFF a` expands to `ADDR_W; RXBYTE a` (the SET-OFFSET format, R68). -/
def pseudoSetoff (a : Byte) : List Instr := [.addrW, .rxbyte a]

/-- `WRITE a, b1, .., bn` expands to `ADDR_W; RXBYTE a; RXBYTE b1; ..; RXBYTE bn` (the WRITE-BLOCK format, R68). -/
def pseudoWrite (a : Byte) (bs : List Byte) : List Instr := pseudoSetoff a ++ bs.map .rxbyte

/-- `TXREQ` n times. -/
def requests (n : Nat) : List Instr := List.replicate n .txreq

/-- `READ n` expands to `ADDR_R` and then `TXREQ` n times (the READ-CURRENT format, R68). -/
def pseudoRead (n : Nat) : List Instr := .addrR :: requests n

/-- `READAT a, n` expands to `SETOFF a; READ n` (the READ-AT format, R68). -/
def pseudoReadat (a : Byte) (n : Nat) : List Instr := pseudoSetoff a ++ pseudoRead n

/-- `END` is `OTHER`. -/
def pseudoEnd : List Instr := [.other]

/-- The host's own operations of a trace, in their order, the bus-controller events left out (R96). -/
def hostSteps (is : List Instr) : List Instr := is.filter fun x => !isEvent x

/-! ### Transfer length and offsets -/

/-- `L(a)`, how many data bytes one transaction accepts from base `a` (R104). -/
def acceptLimit (a : Byte) : Nat := if a.toNat = 255 then 256 else 255 - a.toNat

/-- `(a + k) mod 256`, the offset `k` places after base `a` (R41, R103). -/
def offsetAt (a : Byte) (k : Nat) : Index := BitVec.ofNat 8 (a.toNat + k)

/-! ### Ends of steps -/

/-- The instruction answers a next state with the given phase, cursor and acknowledge decision. -/
def endsIn (i : Instr) (s : State) (p : Phase) (c : Option Byte) (d : AckDec) : Prop :=
  ∃ t, exec i s = .next t ∧ t.ph = p ∧ t.cursor = c ∧ t.ackarm = d

/-! ### What a trace writes (R48) -/

/-- What `RM[k]` holds after a trace, given what it held before: the latest host write to it (R48, R95). -/
def latestRmWrite (k : Index) : List Instr → Byte → Byte
  | [], b => b
  | .hwrRm x d :: is, b => latestRmWrite k is (if x = k then d else b)
  | .addrW :: is, b | .rxbyte _ :: is, b | .addrR :: is, b | .txreq :: is, b | .other :: is, b
  | .hrdWm _ :: is, b | .hwrWm _ _ :: is, b | .hrdRm _ :: is, b => latestRmWrite k is b

/-- The byte an instruction writes to `WM[k]` in a state, if it writes that entry: a host write, or an `RXBYTE` in its
data case with the cursor at `k` (R75, R93). -/
def wmWriteAt (k : Index) (i : Instr) (s : State) : Option Byte :=
  match i with
  | .hwrWm x d => if x = k then some d else none
  | .rxbyte v => if rxStoreIndex? s = some k then some v else none
  | .addrW | .addrR | .txreq | .other | .hrdWm _ | .hrdRm _ | .hwrRm _ _ => none

/-- What `WM[k]` holds after a trace from a state, given what it held before: the latest write to it (R48). -/
def latestWmWrite (k : Index) : List Instr → State → Byte → Byte
  | [], _, b => b
  | i :: is, s, b =>
    match exec i s with
    | .next t => latestWmWrite k is t ((wmWriteAt k i s).getD b)
    | .fault _ => b
    | .refused _ => b

/-- No step of the trace is an accepted `TXREQ` (R84). -/
def noAcceptedTxreq : List Instr → State → Bool
  | [], _ => true
  | i :: is, s =>
    !(i == .txreq && accepted i s) &&
      match exec i s with
      | .next t => noAcceptedTxreq is t
      | .fault _ => true
      | .refused _ => true

end Sys2Proof.Machine
end

