-- ==== Sys2Proof/Safety.lean ====
section
/-! DEFINITION. The invariants of 10_state.md R33, and the environment predicates a claim may assume
(92_eei_decisions.md D12). -/

namespace Sys2Proof.Machine

/-- The invariants of R33 that are properties of one state. I1 is the arrays' canonical form; I6 is the shape of State
(one cursor, one phase); I5 and I7 are properties of a step and are stated as such. -/
structure Invariants (s : State) : Prop where
  /-- I1: every index of `WM` in use is in 0..255, in canonical form. -/
  wmWf : s.wm.wf = true
  /-- I1: every index of `RM` in use is in 0..255, in canonical form. -/
  rmWf : s.rm.wf = true
  /-- I2: `CV = 0` implies `CA = 0`. -/
  unsetZero : s.cv = false → s.ca = 0#8
  /-- I3: `PH = IDLE` implies `CV = 0`. -/
  idleUnset : s.ph = .idle → s.cv = false
  /-- I4: `ACKARM = NACK` implies `PH != IDLE and CV = 1 and CA = 255`. -/
  nackTerminal : s.ackarm = .nack → s.ph ≠ .idle ∧ s.cv = true ∧ s.ca = 255#8

/-! ### Environment predicates (D12): assumptions on the bus controller, never on the block. Log entry 9. -/

/-- `BusOrder`: the events of a transaction arrive in bus order (R54), addressing, then its data bytes, then
termination. The phase given is the one the events so far have put the bus in; host operations are not events. -/
def busOrderFrom : Phase → List Instr → Bool
  | _, [] => true
  | _, .addrW :: is => busOrderFrom .rx is
  | _, .addrR :: is => busOrderFrom .tx is
  | _, .other :: is => busOrderFrom .idle is
  | p, .rxbyte _ :: is => p == .rx && busOrderFrom p is
  | p, .txreq :: is => p == .tx && busOrderFrom p is
  | p, .hrdWm _ :: is | p, .hwrWm _ _ :: is | p, .hrdRm _ :: is | p, .hwrRm _ _ :: is => busOrderFrom p is

/-- `BusOrder` for a trace that begins with no transaction open. -/
def busOrder (is : List Instr) : Bool := busOrderFrom .idle is

/-- `NoDataWhileNack`: no `RXBYTE` or `TXREQ` is delivered while `ACKARM = NACK`. -/
def noDataWhileNack : List Instr → State → Bool
  | [], _ => true
  | i :: is, s =>
    (!isData i || s.ackarm == .ack) &&
      match exec i s with
      | .next t => noDataWhileNack is t
      | .fault _ => true
      | .refused _ => true

/-- `EndRaisesOther`: every transaction end raises `OTHER`, so that no transaction begins while one is open. -/
def endRaisesOtherFrom : Bool → List Instr → Bool
  | _, [] => true
  | isOpen, .addrW :: is | isOpen, .addrR :: is => !isOpen && endRaisesOtherFrom true is
  | _, .other :: is => endRaisesOtherFrom false is
  | isOpen, .rxbyte _ :: is | isOpen, .txreq :: is | isOpen, .hrdWm _ :: is | isOpen, .hwrWm _ _ :: is
  | isOpen, .hrdRm _ :: is | isOpen, .hwrRm _ _ :: is => endRaisesOtherFrom isOpen is

/-- `EndRaisesOther` for a trace that begins with no transaction open. -/
def endRaisesOther (is : List Instr) : Bool := endRaisesOtherFrom false is

/-- Where a trace stands between a receiver phase and a transmitter phase. -/
inductive RestartMark where
  /-- No receiver phase is open or just ended. -/
  | none
  /-- A receiver phase is open. -/
  | receiver
  /-- A receiver phase has ended with an `OTHER`, and no addressing event has come since. -/
  | endedByOther
deriving DecidableEq, Repr

/-- `NoOtherAcrossRestart`: no `OTHER` falls between the receiver phase and the transmitter phase that follows it. -/
def noOtherAcrossRestartFrom : RestartMark → List Instr → Bool
  | _, [] => true
  | _, .addrW :: is => noOtherAcrossRestartFrom .receiver is
  | m, .addrR :: is => m != .endedByOther && noOtherAcrossRestartFrom .none is
  | .receiver, .other :: is => noOtherAcrossRestartFrom .endedByOther is
  | .none, .other :: is => noOtherAcrossRestartFrom .none is
  | .endedByOther, .other :: is => noOtherAcrossRestartFrom .endedByOther is
  | m, .rxbyte _ :: is | m, .txreq :: is | m, .hrdWm _ :: is | m, .hwrWm _ _ :: is | m, .hrdRm _ :: is
  | m, .hwrRm _ _ :: is => noOtherAcrossRestartFrom m is

/-- `NoOtherAcrossRestart` for a trace that begins with no transaction open. -/
def noOtherAcrossRestart (is : List Instr) : Bool := noOtherAcrossRestartFrom .none is

/-- No data event of the run is rejected. -/
def noneRejected : List Instr → State → Bool
  | [], _ => true
  | i :: is, s =>
    !rejected i s &&
      match exec i s with
      | .next t => noneRejected is t
      | .fault _ => true
      | .refused _ => true

end Sys2Proof.Machine
end

