-- ==== Sys2Proof/Certificates/Slice0/Obligations.lean ====
section
/-! DEFINITION. The statements for the provers. Each docstring names what it formalises; where the spec itself marks a
point as its own decision (D<n>) or derivation, the statement rests on that decision and says so. -/

open Sys2Proof Sys2Proof.Machine

/-! ## Words and decoding -/

/-- Words of 95_test_vectors.md V5 to V16, each decoded. The encodings are the spec's own (D9, D10). -/
def Obligations.SpecWordsDecode : Prop :=
  decode (.ev 0x100#11) = .addrW ∧ decode (.ev 0x1A7#11) = .addrW ∧
  decode (.ev 0x200#11) = .rxbyte 0x00#8 ∧ decode (.ev 0x2FF#11) = .rxbyte 0xFF#8 ∧
  decode (.ev 0x300#11) = .addrR ∧ decode (.ev 0x3FF#11) = .addrR ∧
  decode (.ev 0x400#11) = .txreq ∧ decode (.ev 0x455#11) = .txreq ∧
  decode (.ev 0x500#11) = .other ∧ decode (.ev 0x000#11) = .other ∧ decode (.ev 0x0FF#11) = .other ∧
  decode (.ev 0x600#11) = .other ∧ decode (.ev 0x6AB#11) = .other ∧ decode (.ev 0x700#11) = .other ∧
  decode (.ev 0x7FF#11) = .other ∧
  decode (.hw 0x00000#18) = .hrdWm 0#8 ∧ decode (.hw 0x0FF37#18) = .hrdWm 255#8 ∧
  decode (.hw 0x1807F#18) = .hwrWm 128#8 0x7F#8 ∧ decode (.hw 0x20500#18) = .hrdRm 5#8 ∧
  decode (.hw 0x3FFFF#18) = .hwrRm 255#8 0xFF#8 ∧ decode (.hw 0x305AA#18) = .hwrRm 5#8 0xAA#8

/-- R57 to R60: the event word by its fields. Kinds 1 to 5 are the five events, 0, 6 and 7 decode as OTHER, the value
is the received byte for RXBYTE and ignored for every other kind, and every word has these fields. The word is the
spec's own (D9, D18). -/
def Obligations.EventWordFieldsDecideTheEvent : Prop :=
  (∀ v : Byte,
    decodeEv (packEv 0#3 v) = .other ∧ decodeEv (packEv 1#3 v) = .addrW ∧ decodeEv (packEv 2#3 v) = .rxbyte v ∧
    decodeEv (packEv 3#3 v) = .addrR ∧ decodeEv (packEv 4#3 v) = .txreq ∧ decodeEv (packEv 5#3 v) = .other ∧
    decodeEv (packEv 6#3 v) = .other ∧ decodeEv (packEv 7#3 v) = .other) ∧
  (∀ (k : BitVec 3) (v : Byte), (packEv k v).toNat = k.toNat * 256 + v.toNat) ∧
  ∀ w : EvWord, ∃ k v, w = packEv k v

/-- R63, R64: the host word by its fields. All four combinations of sel and wr are operations, every index is legal,
data is ignored on a read, and every word has these fields. The word is the spec's own (D10). -/
def Obligations.HostWordFieldsDecideTheOperation : Prop :=
  (∀ (i : Index) (d : Byte),
    decodeHw (packHw 0#1 0#1 i d) = .hrdWm i ∧ decodeHw (packHw 0#1 1#1 i d) = .hwrWm i d ∧
    decodeHw (packHw 1#1 0#1 i d) = .hrdRm i ∧ decodeHw (packHw 1#1 1#1 i d) = .hwrRm i d) ∧
  (∀ (sel wr : BitVec 1) (i : Index) (d : Byte),
    (packHw sel wr i d).toNat = sel.toNat * 131072 + wr.toNat * 65536 + i.toNat * 256 + d.toNat) ∧
  ∀ w : HwWord, ∃ sel wr i d, w = packHw sel wr i d

/-- Decoding an encoded instruction gives it back, operands and all, from the word and from its number at its boundary;
and encoding a decoded word gives the word back exactly when it is canonical. The event half is R67 with R59's canonical
form (D9, D18). The host half, an encoder for host operations and data 0 as the canonical word of a host read, is the
model's, read from the words R92 to R95 name for the layout of R63 (D10; log entry 8). -/
def Obligations.DecodeAndEncodeAgree : Prop :=
  (∀ i : Instr, decode (encode i) = i) ∧
  (∀ i : Instr, decodeNumber i.port (encode i).number = .ok i) ∧
  (∀ w : PortWord, encode (decode w) = w ↔ w.canonical = true)

/-- R72: every word of either boundary is a word of exactly one of the twelve rows of the opcode table, and decodes to
an instruction of that row's mnemonic at that row's boundary. -/
def Obligations.EveryWordHasOneTableRow : Prop :=
  ∀ w : PortWord,
    (opcodeTable.filter fun r => r.hasWord w).map OpcodeRow.mnemonic = [(decode w).mnemonic] ∧
    (decode w).port = w.port

/-! ## Steps -/

/-- R14, R131: a step takes the next word presented and runs the instruction it decodes to, with the rest of the trace
left; with no word presented the block waits. That the words still to come stand in State, and that an opcode-table
word is presented before them, is the model's choice (log entries 1 and 7). -/
def Obligations.StepRunsTheDecodedInstruction : Prop :=
  (∀ (s : State) (w : PortWord) (rest : List PortWord),
    s.trace = w :: rest → step s = exec (decode w) { s with trace := rest }) ∧
  (∀ s : State, s.trace = [] → step s = .next s) ∧
  (∀ (s : State) (nbits w : Nat) (i : Instr),
    decodeTableWord nbits w = some i → step (s.withFetchWord nbits w) = exec i s) ∧
  ∀ (s : State) (nbits w : Nat), decodeTableWord nbits w = none → s.withFetchWord nbits w = s

/-- A run of the machine over a list of words is the run of the instructions they decode to, one after the other in
that order (R14, R47; the trace in State is the model's choice, log entry 1). -/
def Obligations.RunOverWordsIsRunOfTheirInstructions : Prop :=
  ∀ (ws : List PortWord) (s : State),
    Host.Core.run Sys2Proof.core ws.length { s with trace := ws } = runTrace (ws.map decode) { s with trace := [] }

/-- R114: no exception, trap or fault, ever: every instruction in every state has a next state, so has every step, and
so has every run of any number of steps; no access to an array can fault. -/
def Obligations.BlockNeverStops : Prop :=
  (∀ (i : Instr) (s : State), ∃ t, exec i s = .next t) ∧
  (∀ s : State, ∃ t, step s = .next t) ∧
  ∀ (k : Nat) (s : State), ∃ t, Host.Core.run Sys2Proof.core k s = .next t

/-! ## What each instruction does -/

/-- R74, ADDR_W, in every state. `PH <- RX` is the spec's decision D2. -/
def Obligations.AddrWClearsCursorAndEntersReceive : Prop :=
  ∀ s : State, exec .addrW s = .next { s with cv := false, ca := 0#8, ph := .rx, ackarm := .ack }

/-- R75, offset case: an accepted RXBYTE with the cursor unset sets the cursor, whatever the byte (R78 a). The fit
condition is the spec's decision D3, D4. -/
def Obligations.RxbyteTakesTheOffset : Prop :=
  ∀ (s : State) (v : Byte), s.ph = .rx → s.ackarm = .ack → s.cv = false →
    exec (.rxbyte v) s = .next { s with cv := true, ca := v, ackarm := .ack }

/-- R75, R77, R78, data case: an accepted RXBYTE with the cursor set stores the byte at the cursor and nowhere else,
advances the cursor by one modulo 256, arms NACK exactly when it used index 254, and changes nothing else. The fit
condition is the spec's decision D3, D4; the boundary at 254 its decision D6. -/
def Obligations.RxbyteStoresAtTheCursor : Prop :=
  ∀ (s : State) (v : Byte), s.ph = .rx → s.ackarm = .ack → s.cv = true →
    ∃ t, exec (.rxbyte v) s = .next t ∧
      memRead .wm s.ca t = v ∧
      (∀ k, k ≠ s.ca → memRead .wm k t = memRead .wm k s) ∧
      t = { s with wm := t.wm, cv := true, ca := s.ca + 1#8, ackarm := if s.ca = 254#8 then .nack else .ack }

/-- R86, R88, R89: a data event that does not fit does the Other path and nothing else: no store, TXD kept, the cursor
cleared, IDLE, ACK. Which events fit is the spec's decision D3, D4. -/
def Obligations.MisfitTakesTheOtherPath : Prop :=
  (∀ (s : State) (v : Byte), ¬(s.ph = .rx ∧ s.ackarm = .ack) →
    exec (.rxbyte v) s = .next { s with cv := false, ca := 0#8, ph := .idle, ackarm := .ack }) ∧
  ∀ s : State, ¬(s.ph = .tx ∧ s.ackarm = .ack) →
    exec .txreq s = .next { s with cv := false, ca := 0#8, ph := .idle, ackarm := .ack }

/-- R80, ADDR_R, in every state: the cursor is left as it stands. `PH <- TX` is the spec's decision D2, `ACKARM <- ACK`
its decision D5. -/
def Obligations.AddrRKeepsCursorAndEntersTransmit : Prop :=
  ∀ s : State, exec .addrR s = .next { s with ph := .tx, ackarm := .ack }

/-- R81, R82, R83: an accepted TXREQ puts RM at the cursor, or at 0 when the cursor is unset, in TXD, advances the
cursor by one modulo 256, arms NACK exactly when it used index 254, and changes nothing else. The fit condition is the
spec's decision D3, D4; the boundary at 254 its decision D6. -/
def Obligations.TxreqSuppliesTheByteAtTheCursor : Prop :=
  ∀ (s : State) (idx : Index), s.ph = .tx → s.ackarm = .ack → idx = (if s.cv then s.ca else 0#8) →
    exec .txreq s = .next { s with
      txd := memRead .rm idx s, cv := true, ca := idx + 1#8, ackarm := if idx = 254#8 then .nack else .ack }

/-- R87, OTHER, in every state: the Other path (R86). `PH <- IDLE` is the spec's decision D2. -/
def Obligations.OtherResetsCursorAndPhase : Prop :=
  ∀ s : State, exec .other s = .next { s with cv := false, ca := 0#8, ph := .idle, ackarm := .ack }

/-- R92, HRD_WM: its words, its result, and no state change of the block; an entry nothing has written reads as its
reset value. Where the result stands is the model's own field (log entry 2). -/
def Obligations.HostReadOfWriteMemory : Prop :=
  ∀ (i : Index) (s : State),
    (∀ d, decode (.hw (packHw 0#1 0#1 i d)) = .hrdWm i) ∧
    (encode (.hrdWm i)).number = 0x00000 + i.toNat * 256 ∧
    exec (.hrdWm i) s = .next { s with hostResult := some (memRead .wm i s) } ∧
    (Memory.get? s.wm i.toNat = none → memRead .wm i s = resetByteFor Config.memInit .wm i)

/-- R93, HWR_WM: its words, the entry written and no other, no other state of the block changed. That a write, which
returns nothing, empties the field that holds the host's latest answer is the model's choice (log entry 2). -/
def Obligations.HostWriteOfWriteMemory : Prop :=
  ∀ (i : Index) (d : Byte) (s : State),
    decode (.hw (packHw 0#1 1#1 i d)) = .hwrWm i d ∧
    (encode (.hwrWm i d)).number = 0x10000 + i.toNat * 256 + d.toNat ∧
    ∃ t, exec (.hwrWm i d) s = .next t ∧ memRead .wm i t = d ∧
      (∀ k, k ≠ i → memRead .wm k t = memRead .wm k s) ∧ t = { s with wm := t.wm, hostResult := none }

/-- R94, HRD_RM: its words, its result, and no state change of the block; from reset, whatever the run, the host reads
back only what the host itself wrote last, or the reset value. Where the result stands is the model's own field (log
entry 2). -/
def Obligations.HostReadOfReadMemory : Prop :=
  ∀ (i : Index) (s : State),
    (∀ d, decode (.hw (packHw 1#1 0#1 i d)) = .hrdRm i) ∧
    (encode (.hrdRm i)).number = 0x20000 + i.toNat * 256 ∧
    exec (.hrdRm i) s = .next { s with hostResult := some (memRead .rm i s) } ∧
    ∀ is t, runTrace is State.reset = .next t →
      exec (.hrdRm i) t = .next { t with
        hostResult := some (latestRmWrite i is (resetByteFor Config.memInit .rm i)) }

/-- R95, HWR_RM: its words, the entry written and no other, no other state of the block changed; no other instruction
changes RM; a write before the TXREQ that reads the index is seen by it, one after it is not, and never changes TXD.
That a write, which returns nothing, empties the field that holds the host's latest answer is the model's choice (log
entry 2). -/
def Obligations.HostWriteOfReadMemory : Prop :=
  (∀ (i : Index) (d : Byte) (s : State),
    decode (.hw (packHw 1#1 1#1 i d)) = .hwrRm i d ∧
    (encode (.hwrRm i d)).number = 0x30000 + i.toNat * 256 + d.toNat ∧
    ∃ t, exec (.hwrRm i d) s = .next t ∧ memRead .rm i t = d ∧
      (∀ k, k ≠ i → memRead .rm k t = memRead .rm k s) ∧ t = { s with rm := t.rm, hostResult := none }) ∧
  (∀ (x : Instr) (s t : State), (∀ i d, x ≠ .hwrRm i d) → exec x s = .next t → t.rm = s.rm) ∧
  ∀ (s : State) (d : Byte), s.ph = .tx → s.ackarm = .ack →
    (∃ t, runTrace [.hwrRm (txIndex s) d, .txreq] s = .next t ∧ t.txd = d) ∧
    ∃ t, runTrace [.txreq, .hwrRm (txIndex s) d] s = .next t ∧ t.txd = memRead .rm (txIndex s) s

/-! ## Reset -/

/-- R34, R130: the reset values of the cursor, the phase and the acknowledge decision (the spec's decision D7), and the
arrays as MEM_INIT says, all zero if it is zero (R7). What is claimed of TXD is nothing: it is unspecified. -/
def Obligations.ResetLeavesTheIdleStateAndMemInit : Prop :=
  State.reset.cv = false ∧ State.reset.ca = 0#8 ∧ State.reset.cursor = none ∧ State.reset.ph = .idle ∧
  State.reset.ackarm = .ack ∧
  (∀ (S : ArrayId) (i : Index), memRead S i State.reset = resetByteFor Config.memInit S i) ∧
  ∀ (S : ArrayId) (i : Index), resetByteFor .zero S i = 0#8

/-! ## Frames -/

/-- The frame of ADDR_W, ADDR_R and OTHER (R113): every byte of both arrays reads as before; every register but the
cursor (CV, CA), PH and ACKARM, which they write, is unchanged, and ADDR_R leaves the cursor too. The model's own fields
are unchanged as well (log entries 1, 2). -/
def Obligations.AddressingAndOtherFrame : Prop :=
  ∀ (i : Instr) (s t : State), i = .addrW ∨ i = .addrR ∨ i = .other → exec i s = .next t →
    (∀ S k, memRead S k t = memRead S k s) ∧
    t.txd = s.txd ∧ t.hostResult = s.hostResult ∧ t.trace = s.trace ∧
    (i = .addrR → t.cv = s.cv ∧ t.ca = s.ca)

/-- The frame of RXBYTE (R75, R89, R113): WM outside the index it stores to reads as before, all of WM when it stores
nothing, all of RM always; every register but the cursor, PH and ACKARM is unchanged, and PH too when it is accepted.
The index is the meaning's own expression, on the state before the step. The model's own fields are unchanged as well
(log entries 1, 2). -/
def Obligations.RxbyteFrame : Prop :=
  ∀ (v : Byte) (s t : State), exec (.rxbyte v) s = .next t →
    (∀ a, rxStoreIndex? s = some a → ∀ k, k ≠ a → memRead .wm k t = memRead .wm k s) ∧
    (rxStoreIndex? s = none → ∀ k, memRead .wm k t = memRead .wm k s) ∧
    (∀ k, memRead .rm k t = memRead .rm k s) ∧
    t.txd = s.txd ∧ t.hostResult = s.hostResult ∧ t.trace = s.trace ∧ (fitsRx s = true → t.ph = s.ph)

/-- The frame of TXREQ (R81, R84, R89, R113): every byte of both arrays reads as before; every register but the
cursor, PH, ACKARM and TXD is unchanged, PH too when it is accepted, TXD too when it is rejected (the spec's decision
D17). The model's own fields are unchanged as well (log entries 1, 2). -/
def Obligations.TxreqFrame : Prop :=
  ∀ s t : State, exec .txreq s = .next t →
    (∀ S k, memRead S k t = memRead S k s) ∧
    t.hostResult = s.hostResult ∧ t.trace = s.trace ∧
    (fitsTx s = true → t.ph = s.ph) ∧ (fitsTx s = false → t.txd = s.txd)

/-- The frame of the host reads HRD_WM and HRD_RM (R92, R94, R113): every byte of both arrays reads as before and
every register of the block is unchanged. -/
def Obligations.HostReadFrame : Prop :=
  ∀ (x : Instr) (i : Index) (s t : State), x = .hrdWm i ∨ x = .hrdRm i → exec x s = .next t →
    (∀ S k, memRead S k t = memRead S k s) ∧
    t.cv = s.cv ∧ t.ca = s.ca ∧ t.ph = s.ph ∧ t.ackarm = s.ackarm ∧ t.txd = s.txd ∧ t.trace = s.trace

/-- The frame of the host writes HWR_WM and HWR_RM (R93, R95, R113): of both arrays every byte but the one at the
operand's index of the array it names reads as before, and every register of the block is unchanged. -/
def Obligations.HostWriteFrame : Prop :=
  ∀ (x : Instr) (S : ArrayId) (i : Index) (d : Byte) (s t : State),
    x = .hwrWm i d ∧ S = .wm ∨ x = .hwrRm i d ∧ S = .rm → exec x s = .next t →
    (∀ T k, ¬(T = S ∧ k = i) → memRead T k t = memRead T k s) ∧
    t.cv = s.cv ∧ t.ca = s.ca ∧ t.ph = s.ph ∧ t.ackarm = s.ackarm ∧ t.txd = s.txd ∧ t.trace = s.trace

/-! ## Invariants -/

/-- R33: the invariants hold in the reset state (whose cursor, phase and decision are the spec's decision D7). -/
def Obligations.ResetMeetsTheInvariants : Prop := Invariants State.reset

/-- R33: every step keeps the invariants I1 to I4, from every state that meets them, whatever word arrives. -/
def Obligations.EveryStepKeepsTheInvariants : Prop :=
  ∀ s t : State, Invariants s → step s = .next t → Invariants t

/-- R88: a state that meets the invariants is of exactly one of the seven state classes (the phase is the spec's
decision D2). -/
def Obligations.InvariantStatesAreSevenClasses : Prop :=
  ∀ s : State, Invariants s → ∃ c : StateClass, c.holds s = true ∧ ∀ c' : StateClass, c'.holds s = true → c' = c

/-- R88, second table, all seven rows by all five events (the table completes the source's rule by the spec's decisions
D2 to D6). -/
def Obligations.FitTableRows : Prop :=
  ∀ (s : State) (v : Byte),
    (StateClass.idle.holds s = true →
      endsIn .addrW s .rx none .ack ∧ endsIn (.rxbyte v) s .idle none .ack ∧ endsIn .addrR s .tx none .ack ∧
      endsIn .txreq s .idle none .ack ∧ endsIn .other s .idle none .ack) ∧
    (StateClass.rxUnset.holds s = true →
      endsIn .addrW s .rx none .ack ∧ endsIn (.rxbyte v) s .rx (some v) .ack ∧ endsIn .addrR s .tx none .ack ∧
      endsIn .txreq s .idle none .ack ∧ endsIn .other s .idle none .ack) ∧
    (StateClass.rxSet.holds s = true → ∀ i, s.cursor = some i →
      endsIn .addrW s .rx none .ack ∧
      endsIn (.rxbyte v) s .rx (some (i + 1#8)) (if i = 254#8 then .nack else .ack) ∧
      (∃ t, exec (.rxbyte v) s = .next t ∧ memRead .wm i t = v) ∧
      endsIn .addrR s .tx (some i) .ack ∧
      endsIn .txreq s .idle none .ack ∧ endsIn .other s .idle none .ack) ∧
    (StateClass.rxTerminal.holds s = true →
      endsIn .addrW s .rx none .ack ∧ endsIn (.rxbyte v) s .idle none .ack ∧
      endsIn .addrR s .tx (some 255#8) .ack ∧
      endsIn .txreq s .idle none .ack ∧ endsIn .other s .idle none .ack) ∧
    (StateClass.txUnset.holds s = true →
      endsIn .addrW s .rx none .ack ∧ endsIn (.rxbyte v) s .idle none .ack ∧ endsIn .addrR s .tx none .ack ∧
      endsIn .txreq s .tx (some 1#8) .ack ∧ (∃ t, exec .txreq s = .next t ∧ t.txd = memRead .rm 0#8 s) ∧
      endsIn .other s .idle none .ack) ∧
    (StateClass.txSet.holds s = true → ∀ i, s.cursor = some i →
      endsIn .addrW s .rx none .ack ∧ endsIn (.rxbyte v) s .idle none .ack ∧ endsIn .addrR s .tx (some i) .ack ∧
      endsIn .txreq s .tx (some (i + 1#8)) (if i = 254#8 then .nack else .ack) ∧
      (∃ t, exec .txreq s = .next t ∧ t.txd = memRead .rm i s) ∧
      endsIn .other s .idle none .ack) ∧
    (StateClass.txTerminal.holds s = true →
      endsIn .addrW s .rx none .ack ∧ endsIn (.rxbyte v) s .idle none .ack ∧
      endsIn .addrR s .tx (some 255#8) .ack ∧
      endsIn .txreq s .idle none .ack ∧ endsIn .other s .idle none .ack)

/-! ## Whole-machine rules -/

/-- R100: how each event moves the cursor, row by row, and no host operation moves it. -/
def Obligations.CursorMovesAsTabled : Prop :=
  ∀ (s t : State),
    (exec .addrW s = .next t → t.cursor = none) ∧
    (∀ v, exec (.rxbyte v) s = .next t →
      (accepted (.rxbyte v) s = true → s.cursor = none → t.cursor = some v) ∧
      (∀ i, accepted (.rxbyte v) s = true → s.cursor = some i → t.cursor = some (succ i)) ∧
      (rejected (.rxbyte v) s = true → t.cursor = none)) ∧
    (exec .addrR s = .next t → t.cursor = s.cursor) ∧
    (exec .txreq s = .next t →
      (accepted .txreq s = true → s.cursor = none → t.cursor = some 1#8) ∧
      (∀ i, accepted .txreq s = true → s.cursor = some i → t.cursor = some (succ i)) ∧
      (rejected .txreq s = true → t.cursor = none)) ∧
    (exec .other s = .next t → t.cursor = none) ∧
    ∀ x, isEvent x = false → exec x s = .next t → t.cursor = s.cursor

/-- R28: what sets and clears the two one-bit conditions CV and ACKARM, and their reset values; no step writes either
as an unlisted side effect. -/
def Obligations.CursorValidAndAckWrittenOnlyAsListed : Prop :=
  (∀ (i : Instr) (s t : State), exec i s = .next t →
    (t.cv = true ↔ accepted i s = true ∨ (i = .addrR ∨ isEvent i = false) ∧ s.cv = true) ∧
    (t.ackarm = .nack ↔
      (∃ x, dataIndex? i s = some x ∧ succ x = 255#8) ∨ isEvent i = false ∧ s.ackarm = .nack)) ∧
  State.reset.cv = false ∧ State.reset.ackarm = .ack

/-- R90, R109: the Other path is idempotent; it erases the history of the cursor, PH and ACKARM, two states alike in
all else going to the same state; and ADDR_W; RXBYTE x establishes offset x from any state. -/
def Obligations.OtherPathErasesHistory : Prop :=
  (∀ s t : State, exec .other s = .next t → exec .other t = .next t) ∧
  (∀ (s : State) (cv : Bool) (ca : Byte) (p : Phase) (d : AckDec),
    exec .other { s with cv := cv, ca := ca, ph := p, ackarm := d } = exec .other s) ∧
  ∀ (s : State) (x : Byte),
    runTrace (pseudoSetoff x) s = .next { s with cv := true, ca := x, ph := .rx, ackarm := .ack }

/-- R20: the arrays share no storage. A byte the master writes at the cursor goes to WM there and leaves RM; a byte it
reads at the cursor comes from RM there, whatever WM holds; so by bus events alone it never reads back what it wrote. -/
def Obligations.ArraysShareNoStorage : Prop :=
  (∀ (s : State) (v : Byte) (k : Index), rxStoreIndex? s = some k →
    ∃ t, exec (.rxbyte v) s = .next t ∧ memRead .wm k t = v ∧ ∀ x, memRead .rm x t = memRead .rm x s) ∧
  (∀ (s : State) (m : Memory), fitsTx s = true →
    ∃ t u, exec .txreq s = .next t ∧ t.txd = memRead .rm (txIndex s) s ∧
      exec .txreq { s with wm := m } = .next u ∧ u.txd = t.txd) ∧
  ∀ (is : List Instr) (s t : State), (∀ x ∈ is, isEvent x = true) → runTrace is s = .next t →
    ∀ k, memRead .rm k t = memRead .rm k s

/-- R18, R19, I7: the engine never reads WM, and of its events only TXREQ reads RM: over any run without the host's (or
TXREQ's) reads of an array, replacing that array's contents changes nothing else. -/
def Obligations.UnreadArraysDoNotInfluenceTheRun : Prop :=
  (∀ (is : List Instr) (s t : State) (m : Memory), (∀ x ∈ is, ∀ k, x ≠ .hrdWm k) → runTrace is s = .next t →
    ∃ u, runTrace is { s with wm := m } = .next u ∧ u = { t with wm := u.wm }) ∧
  ∀ (is : List Instr) (s t : State) (m : Memory),
    (∀ x ∈ is, x ≠ .txreq ∧ ∀ k, x ≠ .hrdRm k) → runTrace is s = .next t →
    ∃ u, runTrace is { s with rm := m } = .next u ∧ u = { t with rm := u.rm }

/-- R40: the host reads and writes every index of both arrays, one byte an access, and reaches neither the cursor, PH,
ACKARM nor TXD. That the byte read stands in hostResult is the model's choice (log entry 2). -/
def Obligations.HostReachesTheArraysOnly : Prop :=
  (∀ (s : State) (i : Index), ∃ t, exec (.hrdWm i) s = .next t ∧ t.hostResult = some (memRead .wm i s)) ∧
  (∀ (s : State) (i : Index), ∃ t, exec (.hrdRm i) s = .next t ∧ t.hostResult = some (memRead .rm i s)) ∧
  (∀ (s : State) (i : Index) (d : Byte), ∃ t, exec (.hwrWm i d) s = .next t ∧
    ∀ S k, memRead S k t = if S = .wm ∧ k = i then d else memRead S k s) ∧
  (∀ (s : State) (i : Index) (d : Byte), ∃ t, exec (.hwrRm i d) s = .next t ∧
    ∀ S k, memRead S k t = if S = .rm ∧ k = i then d else memRead S k s) ∧
  ∀ (is : List Instr) (s t : State), (∀ x ∈ is, isEvent x = false) → runTrace is s = .next t →
    t.cursor = s.cursor ∧ t.cv = s.cv ∧ t.ca = s.ca ∧ t.ph = s.ph ∧ t.ackarm = s.ackarm ∧ t.txd = s.txd

/-- R45: reads have no side effect on the arrays, and the side effect of TXREQ is on the cursor, ACKARM and TXD;
writing the same byte to the same index twice leaves what writing it once leaves; an accepted data event is not
idempotent: it moves the cursor, and the same event once more does not leave the state as it is. -/
def Obligations.ReadsKeepArraysAndWritesRepeat : Prop :=
  (∀ (i : Instr) (s t : State), (i = .txreq ∨ ∃ k, i = .hrdWm k ∨ i = .hrdRm k) → exec i s = .next t →
    t.wm = s.wm ∧ t.rm = s.rm) ∧
  (∀ s t : State, accepted .txreq s = true → exec .txreq s = .next t →
    t = { s with cv := t.cv, ca := t.ca, ackarm := t.ackarm, txd := t.txd }) ∧
  (∀ (x : Instr) (i : Index) (d : Byte) (s : State), x = .hwrWm i d ∨ x = .hwrRm i d →
    ∃ t u, runTrace [x] s = .next t ∧ runTrace [x, x] s = .next u ∧ ∀ S k, memRead S k u = memRead S k t) ∧
  ∀ (i : Instr) (s t : State), accepted i s = true → exec i s = .next t →
    t.cursor ≠ s.cursor ∧ exec i t ≠ .next t

/-- R84 (with D17 for what TXREQ does not supply): TXREQ never writes an array; when accepted it leaves PH and never
clears the cursor; and TXD keeps its byte through any run in which no TXREQ is accepted. -/
def Obligations.TxdHeldUntilNextAcceptedTxreq : Prop :=
  (∀ s t : State, exec .txreq s = .next t → t.wm = s.wm ∧ t.rm = s.rm ∧
    (accepted .txreq s = true → t.ph = s.ph ∧ t.cursor ≠ none)) ∧
  ∀ (is : List Instr) (s t : State), noAcceptedTxreq is s = true → runTrace is s = .next t → t.txd = s.txd

/-- R48, for RM: after any run, RM[k] reads as the latest host write to it in the run's order, or as before the run if
there is none (R95; one total order is the spec's decision D15). -/
def Obligations.ReadMemoryHoldsTheLatestHostWrite : Prop :=
  ∀ (is : List Instr) (s t : State) (k : Index), runTrace is s = .next t →
    memRead .rm k t = latestRmWrite k is (memRead .rm k s)

/-- R48, for WM: after any run, WM[k] reads as the latest write to it in the run's order, of the host or of an accepted
RXBYTE with the cursor at k, or as before the run if there is none (one total order is the spec's decision D15). -/
def Obligations.WriteMemoryHoldsTheLatestWrite : Prop :=
  ∀ (is : List Instr) (s t : State) (k : Index), runTrace is s = .next t →
    memRead .wm k t = latestWmWrite k is s (memRead .wm k s)

/-- R115, R119: the three error classes. An unexpected event does what OTHER does; an event at the buffer boundary arms
NACK with the cursor at 255; a stale offset reads RM[0] and goes on; and no event meets two of them. Which events fit is
the spec's decision D3, D4. -/
def Obligations.ErrorClassesAreResolvedLocally : Prop :=
  ∀ (i : Instr) (s : State),
    (unexpectedEvent i s = true → exec i s = exec .other s) ∧
    (bufferBoundary i s = true → ∃ t, exec i s = .next t ∧ t.cursor = some 255#8 ∧ t.ackarm = .nack) ∧
    (staleOffset i s = true →
      ∃ t, exec i s = .next t ∧ t.txd = memRead .rm 0#8 s ∧ t.cursor = some 1#8 ∧ t.ackarm = .ack) ∧
    ¬(unexpectedEvent i s = true ∧ bufferBoundary i s = true) ∧
    ¬(unexpectedEvent i s = true ∧ staleOffset i s = true) ∧
    ¬(bufferBoundary i s = true ∧ staleOffset i s = true)

/-- D4, D12: under the contract of the bus controller (BusOrder from the phase the state is in, and NoDataWhileNack) no
data event is rejected, so on those traces the spec's reading and the literal rule agree. -/
def Obligations.NothingIsRejectedUnderTheContract : Prop :=
  ∀ (is : List Instr) (s : State), busOrderFrom s.ph is = true → noDataWhileNack is s = true →
    noneRejected is s = true

/-- R140, D12: if every transaction end raises OTHER, then no transaction begins with a stale cursor: whatever ran
before from an idle state, an ADDR_R finds the cursor unset. EndRaisesOther is an assumption on the bus controller, as
log entry 9 reads it. -/
def Obligations.NoStaleCursorWhenEndsRaiseOther : Prop :=
  ∀ (is : List Instr) (s t : State), s.ph = .idle → s.cursor = none →
    endRaisesOther (is ++ [.addrR]) = true → runTrace (is ++ [.addrR]) s = .next t → t.ph = .tx ∧ t.cursor = none

/-- R110, D12: if no OTHER falls between the receiver phase and the transmitter phase, the offset set in the one is the
read offset of the other, whatever the host does between. NoOtherAcrossRestart is an assumption on the bus controller,
as log entry 9 reads it. -/
def Obligations.OffsetSurvivesWithoutOtherAcrossRestart : Prop :=
  ∀ (between : List Instr) (s t : State) (a : Byte), (∀ x ∈ between, x = .other ∨ isEvent x = false) →
    noOtherAcrossRestart (pseudoSetoff a ++ between ++ [.addrR]) = true →
    runTrace (pseudoSetoff a ++ between ++ [.addrR]) s = .next t →
    t.ph = .tx ∧ t.cursor = some a ∧ t.ackarm = .ack

/-- R23, R88: how the four state names move: which events fit which names, and the name each event leads to (the names
are views of the phase, the spec's decision D2). -/
def Obligations.FourStateNamesMove : Prop :=
  ∀ (i : Instr) (s t : State), exec i s = .next t →
    (i = .addrW → t.engineState = .awaitingOffset) ∧ (i = .addrR → t.engineState = .reading) ∧
    (i = .other → t.engineState = .idle) ∧ (rejected i s = true → t.engineState = .idle) ∧
    (∀ v, i = .rxbyte v → accepted i s = true →
      (s.engineState = .awaitingOffset ∨ s.engineState = .writing) ∧ t.engineState = .writing) ∧
    (i = .txreq → accepted i s = true → s.engineState = .reading ∧ t.engineState = .reading) ∧
    (isEvent i = false → t.engineState = s.engineState)

/-- R61: the outputs the bus controller reads. ACK is 1 and NACK is 0 (the code is the spec's decision D9); an accepted
TXREQ shows it the byte and the decision it armed; and host operations, however many, leave both outputs as they are. -/
def Obligations.BusControllerReadsAckAndTxd : Prop :=
  (∀ (s : State) (idx : Index), s.ph = .tx → s.ackarm = .ack → idx = (if s.cv then s.ca else 0#8) →
    ∃ t, exec .txreq s = .next t ∧
      t.busOut = (if idx = 254#8 then 0#1 else 1#1, memRead .rm idx s)) ∧
  ∀ (is : List Instr) (s t : State), (∀ x ∈ is, isEvent x = false) → runTrace is s = .next t → t.busOut = s.busOut

/-! ## Arithmetic and transactions -/

/-- R99: the laws of the successor. -/
def Obligations.SuccessorLaws : Prop :=
  (∀ i : Index, i.toNat ≤ 254 → (succ i).toNat = i.toNat + 1) ∧ succ 255#8 = 0#8 ∧
  (∀ i j : Index, succ i = succ j → i = j) ∧ (∀ j : Index, ∃ i, succ i = j) ∧
  (∀ i : Index, succ^[256] i = i) ∧ ∀ i : Index, succ i = 255#8 ↔ i = 254#8

/-- R103, R104: from any state, ADDR_W; RXBYTE a; RXBYTE b1; ..; RXBYTE bn stores the first L(a) of the data bytes at
a, a+1, .. modulo 256 and nothing else; RM and TXD are unchanged; the end state has the cursor at a+n and ACK when
n < L(a), the cursor at 255 and NACK when n = L(a), and is idle when n > L(a), the byte after the last being rejected.
The boundary is the spec's decision D6, the rejection its decision D4, and that base 255 is an offset like any other,
with L(255) = 256, its decision D1 (log entry 10). hostResult and trace are the model's own fields (log entries 1, 2). -/
def Obligations.SequentialWrite : Prop :=
  ∀ (s : State) (a : Byte) (bs : List Byte),
    ∃ t, runTrace (pseudoWrite a bs) s = .next t ∧
      (∀ (k : Nat) (h : k < bs.length), k < acceptLimit a → memRead .wm (offsetAt a k) t = bs[k]) ∧
      (∀ x, (∀ k, k < bs.length → k < acceptLimit a → offsetAt a k ≠ x) → memRead .wm x t = memRead .wm x s) ∧
      t.rm = s.rm ∧ t.txd = s.txd ∧ t.hostResult = s.hostResult ∧ t.trace = s.trace ∧
      (bs.length < acceptLimit a → t.ph = .rx ∧ t.cursor = some (offsetAt a bs.length) ∧ t.ackarm = .ack) ∧
      (bs.length = acceptLimit a → t.ph = .rx ∧ t.cursor = some 255#8 ∧ t.ackarm = .nack) ∧
      (acceptLimit a < bs.length → t.ph = .idle ∧ t.cursor = none ∧ t.ackarm = .ack)

/-- R105, R106: from any state with the cursor at a (a = 0 if it is unset), after ADDR_R and n times TXREQ, with no other
engine step between but any host steps that do not write the indices concerned, the byte supplied last is
RM[(a + n - 1) mod 256] for 1 <= n <= L(a), and RM[254] still when n > L(a), the further requests being rejected; the
arrays (and the model's own fields, log entries 1, 2) are as the host's steps alone leave them, so unchanged where there
are none; the end state has the cursor at a+n and ACK when n < L(a), the cursor at 255 and NACK when n = L(a), and is
idle when n > L(a). The boundary is the spec's decision D6, the rejection its D4, that a read is served from a NACK
state its D5 (log entry 12), base 255 its D1 (log entry 10). -/
def Obligations.SequentialRead : Prop :=
  ∀ (s : State) (a : Byte) (is : List Instr) (n : Nat), a = s.cursor.getD 0#8 →
    (∀ x ∈ is, x = .txreq ∨ isEvent x = false) → n = is.count .txreq → 1 ≤ n →
    (∀ k d, k < n → k < acceptLimit a → .hwrRm (offsetAt a k) d ∉ is) →
    ∃ t u, runTrace (.addrR :: is) s = .next t ∧ runTrace (hostSteps is) s = .next u ∧
      t.wm = u.wm ∧ t.rm = u.rm ∧ t.hostResult = u.hostResult ∧ t.trace = u.trace ∧
      (n ≤ acceptLimit a → t.txd = memRead .rm (offsetAt a (n - 1)) s) ∧
      (acceptLimit a ≤ n → t.txd = memRead .rm 254#8 s) ∧
      (n < acceptLimit a → t.ph = .tx ∧ t.cursor = some (offsetAt a n) ∧ t.ackarm = .ack) ∧
      (n = acceptLimit a → t.ph = .tx ∧ t.cursor = some 255#8 ∧ t.ackarm = .nack) ∧
      (acceptLimit a < n → t.ph = .idle ∧ t.cursor = none ∧ t.ackarm = .ack)

/-- R110: the cursor set in the receiver phase is the read offset; with an OTHER between, it is lost and the read
starts at offset 0. -/
def Obligations.OffsetCarriesOverIntoRead : Prop :=
  ∀ (s : State) (a : Byte),
    runTrace (pseudoSetoff a ++ [.addrR]) s = .next { s with cv := true, ca := a, ph := .tx, ackarm := .ack } ∧
    (∃ t, runTrace (pseudoReadat a 1) s = .next t ∧ t.txd = memRead .rm a s) ∧
    ∃ t, runTrace (pseudoSetoff a ++ pseudoEnd ++ pseudoRead 1) s = .next t ∧ t.txd = memRead .rm 0#8 s

/-- R111: a read continues where the write stopped, and where an earlier read stopped: the cursor is shared by both
directions. -/
def Obligations.ReadContinuesWhereTheLastTransferStopped : Prop :=
  (∀ (s : State) (a : Byte) (bs : List Byte), bs.length < acceptLimit a →
    ∃ t, runTrace (pseudoWrite a bs ++ pseudoRead 1) s = .next t ∧
      t.txd = memRead .rm (offsetAt a bs.length) s) ∧
  ∀ (s : State) (a : Byte) (k : Nat), s.cursor = some a → k < acceptLimit a →
    ∃ t, runTrace (pseudoRead k ++ pseudoRead 1) s = .next t ∧ t.txd = memRead .rm (offsetAt a k) s

/-- R107: an accepted data event that uses index 254 is the last one acknowledged; the data event after it is rejected
and changes no array entry, nor TXD. The index is the spec's decision D6, the rejection its decision D4. -/
def Obligations.TerminalIndexEndsTheTransfer : Prop :=
  ∀ (i j : Instr) (s : State), dataIndex? i s = some 254#8 → isData j = true →
    ∃ t, exec i s = .next t ∧ t.cursor = some 255#8 ∧ t.ackarm = .nack ∧
      ∃ u, exec j t = .next u ∧ (∀ S k, memRead S k u = memRead S k t) ∧ u.txd = t.txd ∧
        u.ph = .idle ∧ u.cursor = none ∧ u.ackarm = .ack

/-- R108: the cursor stands at 255 with ACK after a step only by an offset byte 255, by an ADDR_R with the cursor
already at 255, or, unchanged, through a host operation; and from there an accepted data event uses index 255 and moves
the cursor to 0 with ACK. The source leaves index 255 open (D1, D6). -/
def Obligations.IndexTwoFiftyFiveWraps : Prop :=
  (∀ (i : Instr) (s t : State), exec i s = .next t → t.cursor = some 255#8 → t.ackarm = .ack →
    (i = .rxbyte 255#8 ∧ s.ph = .rx ∧ s.cursor = none) ∨ (i = .addrR ∧ s.cursor = some 255#8) ∨
    (isEvent i = false ∧ s.cursor = some 255#8 ∧ s.ackarm = .ack)) ∧
  ∀ (s : State) (v : Byte), s.cursor = some 255#8 → s.ackarm = .ack →
    (s.ph = .rx → ∃ t, exec (.rxbyte v) s = .next t ∧ memRead .wm 255#8 t = v ∧
      t.cursor = some 0#8 ∧ t.ackarm = .ack) ∧
    (s.ph = .tx → ∃ t, exec .txreq s = .next t ∧ t.txd = memRead .rm 255#8 s ∧
      t.cursor = some 0#8 ∧ t.ackarm = .ack)
end

