-- ==== Sys2Proof/Laws/Decode.lean ====
section
/-! SUPPORT. The fields of a word as numbers, the word as a number, and packing and field reading as inverses. -/

namespace Sys2Proof

/-! ### Words and fields as numbers -/

theorem evKind_toNat (w : EvWord) : (evKind w).toNat = w.toNat / 256 % 8 := by
  simp [evKind, BitVec.extractLsb'_toNat, Nat.shiftRight_eq_div_pow]

theorem evValue_toNat (w : EvWord) : (evValue w).toNat = w.toNat % 256 := by
  simp [evValue, BitVec.extractLsb'_toNat]

theorem hwSel_toNat (w : HwWord) : (hwSel w).toNat = w.toNat / 131072 % 2 := by
  simp [hwSel, BitVec.extractLsb'_toNat, Nat.shiftRight_eq_div_pow]

theorem hwWr_toNat (w : HwWord) : (hwWr w).toNat = w.toNat / 65536 % 2 := by
  simp [hwWr, BitVec.extractLsb'_toNat, Nat.shiftRight_eq_div_pow]

theorem hwIndex_toNat (w : HwWord) : (hwIndex w).toNat = w.toNat / 256 % 256 := by
  simp [hwIndex, BitVec.extractLsb'_toNat, Nat.shiftRight_eq_div_pow]

theorem hwData_toNat (w : HwWord) : (hwData w).toNat = w.toNat % 256 := by
  simp [hwData, BitVec.extractLsb'_toNat]

theorem append_toNat {m n : Nat} (x : BitVec m) (y : BitVec n) : (x ++ y).toNat = x.toNat * 2 ^ n + y.toNat := by
  rw [BitVec.toNat_append, Nat.shiftLeft_eq, Nat.mul_comm, ← Nat.two_pow_add_eq_or_of_lt y.isLt]

theorem packEv_toNat (k : BitVec 3) (v : Byte) : (packEv k v).toNat = k.toNat * 256 + v.toNat :=
  append_toNat k v

theorem packHw_toNat (a b : BitVec 1) (i : Index) (d : Byte) :
    (packHw a b i d).toNat = a.toNat * 131072 + b.toNat * 65536 + i.toNat * 256 + d.toNat := by
  have h1 : (a ++ b).toNat = a.toNat * 2 + b.toNat := append_toNat a b
  have h2 : (a ++ b ++ i).toNat = (a ++ b).toNat * 256 + i.toNat := append_toNat (a ++ b) i
  have h3 : (packHw a b i d).toNat = (a ++ b ++ i).toNat * 256 + d.toNat := append_toNat (a ++ b ++ i) d
  simp [h3, h2, h1, Nat.add_mul, Nat.mul_assoc]

/-! ### Packing and reading -/

@[simp] theorem evKind_packEv (k : BitVec 3) (v : Byte) : evKind (packEv k v) = k := by
  apply BitVec.eq_of_toNat_eq
  rw [evKind_toNat, packEv_toNat]; omega

@[simp] theorem evValue_packEv (k : BitVec 3) (v : Byte) : evValue (packEv k v) = v := by
  apply BitVec.eq_of_toNat_eq
  rw [evValue_toNat, packEv_toNat]; omega

theorem packEv_fields (w : EvWord) : packEv (evKind w) (evValue w) = w := by
  apply BitVec.eq_of_toNat_eq
  rw [packEv_toNat, evKind_toNat, evValue_toNat]; omega

@[simp] theorem hwSel_packHw (a b : BitVec 1) (i : Index) (d : Byte) : hwSel (packHw a b i d) = a := by
  apply BitVec.eq_of_toNat_eq
  rw [hwSel_toNat, packHw_toNat]; omega

@[simp] theorem hwWr_packHw (a b : BitVec 1) (i : Index) (d : Byte) : hwWr (packHw a b i d) = b := by
  apply BitVec.eq_of_toNat_eq
  rw [hwWr_toNat, packHw_toNat]; omega

@[simp] theorem hwIndex_packHw (a b : BitVec 1) (i : Index) (d : Byte) : hwIndex (packHw a b i d) = i := by
  apply BitVec.eq_of_toNat_eq
  rw [hwIndex_toNat, packHw_toNat]; omega

@[simp] theorem hwData_packHw (a b : BitVec 1) (i : Index) (d : Byte) : hwData (packHw a b i d) = d := by
  apply BitVec.eq_of_toNat_eq
  rw [hwData_toNat, packHw_toNat]; omega

theorem packHw_fields (w : HwWord) : packHw (hwSel w) (hwWr w) (hwIndex w) (hwData w) = w := by
  apply BitVec.eq_of_toNat_eq
  rw [packHw_toNat, hwSel_toNat, hwWr_toNat, hwIndex_toNat, hwData_toNat]; omega

/-! ### Numbers offered at a boundary -/

/-- A word's own number is the word again at its boundary. -/
theorem readPort_number (w : PortWord) : readPort w.port w.number = .ok w := by
  cases w with
  | ev w =>
    have h : Port.event.wfNumber w.toNat = true := decide_eq_true w.isLt
    simp [readPort, PortWord.port, PortWord.number, h]
  | hw w =>
    have h : Port.host.wfNumber w.toNat = true := decide_eq_true w.isLt
    simp [readPort, PortWord.port, PortWord.number, h]

/-! ### The values of a field -/

/-- A field of one bit is 0 or 1. -/
theorem bit_cases (b : BitVec 1) : b = 0#1 ∨ b = 1#1 := by
  revert b; decide

/-- A field of three bits is one of the eight kind codes (R57). -/
theorem kind_cases (k : BitVec 3) :
    k = 0#3 ∨ k = 1#3 ∨ k = 2#3 ∨ k = 3#3 ∨ k = 4#3 ∨ k = 5#3 ∨ k = 6#3 ∨ k = 7#3 := by
  revert k; decide

/-! ### Table rows -/

/-- An event row's mask looks at the kind field alone (R57, R72). -/
theorem kind_mask (n : Nat) : n &&& 0x700 = n / 256 % 8 * 256 := by
  apply Nat.eq_of_testBit_eq; intro j
  rw [show n / 256 % 8 * 256 = ((n >>> 8) % 2 ^ 3) <<< 8 by rw [Nat.shiftLeft_eq, Nat.shiftRight_eq_div_pow]; rfl]
  rw [Nat.testBit_and, Nat.testBit_shiftLeft, Nat.testBit_mod_two_pow, Nat.testBit_shiftRight,
    show (0x700 : Nat) = (2 ^ 3 - 1) <<< 8 from rfl, Nat.testBit_shiftLeft, Nat.testBit_two_pow_sub_one]
  by_cases h : 8 ≤ j
  · have h2 : 8 + (j - 8) = j := by omega
    simp only [h, h2, decide_true, Bool.true_and]; exact Bool.and_comm _ _
  · simp [h]

/-- A host row's mask looks at the fields `sel` and `wr` alone (R63, R72). -/
theorem selWr_mask (n : Nat) : n &&& 0x30000 = n / 65536 % 4 * 65536 := by
  apply Nat.eq_of_testBit_eq; intro j
  rw [show n / 65536 % 4 * 65536 = ((n >>> 16) % 2 ^ 2) <<< 16 by rw [Nat.shiftLeft_eq, Nat.shiftRight_eq_div_pow]; rfl]
  rw [Nat.testBit_and, Nat.testBit_shiftLeft, Nat.testBit_mod_two_pow, Nat.testBit_shiftRight,
    show (0x30000 : Nat) = (2 ^ 2 - 1) <<< 16 from rfl, Nat.testBit_shiftLeft, Nat.testBit_two_pow_sub_one]
  by_cases h : 16 ≤ j
  · have h2 : 16 + (j - 16) = j := by omega
    simp only [h, h2, decide_true, Bool.true_and]; exact Bool.and_comm _ _
  · simp [h]

/-- What an event row's mask leaves of a packed event word. -/
theorem packEv_mask (k : BitVec 3) (v : Byte) : (packEv k v).toNat &&& 0x700 = k.toNat * 256 := by
  rw [kind_mask, packEv_toNat]; omega

/-- What a host row's mask leaves of a packed host word. -/
theorem packHw_mask (a b : BitVec 1) (i : Index) (d : Byte) :
    (packHw a b i d).toNat &&& 0x30000 = a.toNat * 131072 + b.toNat * 65536 := by
  rw [selWr_mask, packHw_toNat]; omega

end Sys2Proof
end

