-- ==== Sys2Proof/Laws/Memory.lean ====
section
/-! SUPPORT. The laws of one array: read after write, and the canonical form, kept by every write and making equal
contents equal data. -/

namespace Sys2Proof.Machine.Memory

theorem get?_put_self (m : Memory) (i : Nat) (v : Byte) : Memory.get? (Memory.put m i v) i = some v := by
  induction m with
  | nil => simp [Memory.put, Memory.get?]
  | cons c m ih =>
    obtain ⟨a, w⟩ := c
    simp only [Memory.put]
    split
    · simp [Memory.get?]
    · split
      · simp [Memory.get?]
      · rename_i h₁ h₂
        simp only [Memory.get?, ih, ite_eq_right_iff]
        intro h; exact absurd h.symm h₂

theorem get?_put_other (m : Memory) (i k : Nat) (v : Byte) (h : k ≠ i) :
    Memory.get? (Memory.put m i v) k = Memory.get? m k := by
  induction m with
  | nil => simp [Memory.put, Memory.get?, Ne.symm h]
  | cons c m ih =>
    obtain ⟨a, w⟩ := c
    simp only [Memory.put]
    split
    · simp [Memory.get?, Ne.symm h]
    · split
      · rename_i h₁ h₂
        subst h₂
        simp [Memory.get?, Ne.symm h]
      · simp only [Memory.get?, ih]

theorem get?_put (m : Memory) (i k : Nat) (v : Byte) :
    Memory.get? (Memory.put m i v) k = if k = i then some v else Memory.get? m k := by
  split
  · rename_i h; subst h; exact get?_put_self m k v
  · rename_i h; exact get?_put_other m i k v h

/-- Writing at an index from `lo` on keeps the indices rising from `lo` on. -/
theorem put_wfFrom (m : Memory) (lo i : Nat) (v : Byte) (hm : Memory.wfFrom lo m = true)
    (hlo : lo ≤ i) (hi : i < Config.memSize) : Memory.wfFrom lo (Memory.put m i v) = true := by
  induction m generalizing lo with
  | nil => simp [Memory.put, Memory.wfFrom, hlo, hi]
  | cons c m ih =>
    obtain ⟨a, w⟩ := c
    simp only [Memory.wfFrom, Bool.and_eq_true, decide_eq_true_eq] at hm
    obtain ⟨⟨h1, h2⟩, h3⟩ := hm
    simp only [Memory.put]
    split
    · rename_i hlt
      simp only [Memory.wfFrom, Bool.and_eq_true, decide_eq_true_eq]
      exact ⟨⟨hlo, hi⟩, ⟨hlt, h2⟩, h3⟩
    · split
      · rename_i heq
        subst heq
        simp only [Memory.wfFrom, Bool.and_eq_true, decide_eq_true_eq]
        exact ⟨⟨hlo, hi⟩, h3⟩
      · rename_i h₁ h₂
        simp only [Memory.wfFrom, Bool.and_eq_true, decide_eq_true_eq]
        exact ⟨⟨h1, h2⟩, ih (a + 1) h3 (by omega)⟩

/-- Every write at an index keeps the canonical form (R38, R44). -/
theorem put_wf (m : Memory) (i : Index) (v : Byte) (hm : m.wf = true) : (Memory.put m i.toNat v).wf = true :=
  put_wfFrom m 0 i.toNat v hm (Nat.zero_le _) i.isLt

/-- An index below all those listed is not listed. -/
theorem get?_of_lt (m : Memory) (lo k : Nat) (hm : Memory.wfFrom lo m = true) (hk : k < lo) :
    Memory.get? m k = none := by
  induction m generalizing lo with
  | nil => rfl
  | cons c m ih =>
    obtain ⟨a, w⟩ := c
    simp only [Memory.wfFrom, Bool.and_eq_true, decide_eq_true_eq] at hm
    obtain ⟨⟨h1, _⟩, h3⟩ := hm
    have hne : a ≠ k := by omega
    simp only [Memory.get?, if_neg hne]
    exact ih (a + 1) h3 (by omega)

/-- Two arrays in canonical form with the same contents are the same data. -/
theorem ext_wfFrom (m n : Memory) (lo : Nat) (hm : Memory.wfFrom lo m = true) (hn : Memory.wfFrom lo n = true)
    (h : ∀ k, Memory.get? m k = Memory.get? n k) : m = n := by
  induction m generalizing n lo with
  | nil =>
    cases n with
    | nil => rfl
    | cons c n => obtain ⟨a, w⟩ := c; simpa [Memory.get?] using h a
  | cons c m ih =>
    obtain ⟨a, w⟩ := c
    cases n with
    | nil => simpa [Memory.get?] using h a
    | cons d n =>
      obtain ⟨b, x⟩ := d
      simp only [Memory.wfFrom, Bool.and_eq_true, decide_eq_true_eq] at hm hn
      obtain ⟨⟨_, _⟩, hm3⟩ := hm
      obtain ⟨⟨_, _⟩, hn3⟩ := hn
      have hab : a = b := by
        rcases Nat.lt_trichotomy a b with hlt | heq | hgt
        · have h1 := h a
          have hne : b ≠ a := by omega
          simp only [Memory.get?, if_true, if_neg hne] at h1
          rw [get?_of_lt n (b + 1) a hn3 (by omega)] at h1
          simp at h1
        · exact heq
        · have h1 := h b
          have hne : a ≠ b := by omega
          simp only [Memory.get?, if_true, if_neg hne] at h1
          rw [get?_of_lt m (a + 1) b hm3 (by omega)] at h1
          simp at h1
      subst hab
      have hwx : w = x := by simpa [Memory.get?] using h a
      subst hwx
      congr 1
      refine ih n (a + 1) hm3 hn3 fun k => ?_
      by_cases hk : a = k
      · subst hk
        rw [get?_of_lt m (a + 1) a hm3 (by omega), get?_of_lt n (a + 1) a hn3 (by omega)]
      · simpa [Memory.get?, hk] using h k

/-- Equal contents in canonical form are equal data. -/
theorem ext_wf (m n : Memory) (hm : m.wf = true) (hn : n.wf = true)
    (h : ∀ k, Memory.get? m k = Memory.get? n k) : m = n :=
  ext_wfFrom m n 0 hm hn h

end Sys2Proof.Machine.Memory
end

