-- ==== Sys2Proof/Laws/State.lean ====
section
/-! SUPPORT. One lemma a field for each update of the state, true by unfolding, so that no proof unfolds a record. -/

namespace Sys2Proof.Machine.State

/-! ### `setPh` -/

@[simp] theorem setPh_wm (s : State) (p : Phase) : (s.setPh p).wm = s.wm := rfl
@[simp] theorem setPh_rm (s : State) (p : Phase) : (s.setPh p).rm = s.rm := rfl
@[simp] theorem setPh_cv (s : State) (p : Phase) : (s.setPh p).cv = s.cv := rfl
@[simp] theorem setPh_ca (s : State) (p : Phase) : (s.setPh p).ca = s.ca := rfl
@[simp] theorem setPh_ph (s : State) (p : Phase) : (s.setPh p).ph = p := rfl
@[simp] theorem setPh_ackarm (s : State) (p : Phase) : (s.setPh p).ackarm = s.ackarm := rfl
@[simp] theorem setPh_txd (s : State) (p : Phase) : (s.setPh p).txd = s.txd := rfl
@[simp] theorem setPh_hostResult (s : State) (p : Phase) : (s.setPh p).hostResult = s.hostResult := rfl
@[simp] theorem setPh_trace (s : State) (p : Phase) : (s.setPh p).trace = s.trace := rfl

/-! ### `setAck` -/

@[simp] theorem setAck_wm (s : State) (d : AckDec) : (s.setAck d).wm = s.wm := rfl
@[simp] theorem setAck_rm (s : State) (d : AckDec) : (s.setAck d).rm = s.rm := rfl
@[simp] theorem setAck_cv (s : State) (d : AckDec) : (s.setAck d).cv = s.cv := rfl
@[simp] theorem setAck_ca (s : State) (d : AckDec) : (s.setAck d).ca = s.ca := rfl
@[simp] theorem setAck_ph (s : State) (d : AckDec) : (s.setAck d).ph = s.ph := rfl
@[simp] theorem setAck_ackarm (s : State) (d : AckDec) : (s.setAck d).ackarm = d := rfl
@[simp] theorem setAck_txd (s : State) (d : AckDec) : (s.setAck d).txd = s.txd := rfl
@[simp] theorem setAck_hostResult (s : State) (d : AckDec) : (s.setAck d).hostResult = s.hostResult := rfl
@[simp] theorem setAck_trace (s : State) (d : AckDec) : (s.setAck d).trace = s.trace := rfl

/-! ### `setTxd` -/

@[simp] theorem setTxd_wm (s : State) (v : Byte) : (s.setTxd v).wm = s.wm := rfl
@[simp] theorem setTxd_rm (s : State) (v : Byte) : (s.setTxd v).rm = s.rm := rfl
@[simp] theorem setTxd_cv (s : State) (v : Byte) : (s.setTxd v).cv = s.cv := rfl
@[simp] theorem setTxd_ca (s : State) (v : Byte) : (s.setTxd v).ca = s.ca := rfl
@[simp] theorem setTxd_ph (s : State) (v : Byte) : (s.setTxd v).ph = s.ph := rfl
@[simp] theorem setTxd_ackarm (s : State) (v : Byte) : (s.setTxd v).ackarm = s.ackarm := rfl
@[simp] theorem setTxd_txd (s : State) (v : Byte) : (s.setTxd v).txd = v := rfl
@[simp] theorem setTxd_hostResult (s : State) (v : Byte) : (s.setTxd v).hostResult = s.hostResult := rfl
@[simp] theorem setTxd_trace (s : State) (v : Byte) : (s.setTxd v).trace = s.trace := rfl

/-! ### `setHostResult` -/

@[simp] theorem setHostResult_wm (s : State) (r : Option Byte) : (s.setHostResult r).wm = s.wm := rfl
@[simp] theorem setHostResult_rm (s : State) (r : Option Byte) : (s.setHostResult r).rm = s.rm := rfl
@[simp] theorem setHostResult_cv (s : State) (r : Option Byte) : (s.setHostResult r).cv = s.cv := rfl
@[simp] theorem setHostResult_ca (s : State) (r : Option Byte) : (s.setHostResult r).ca = s.ca := rfl
@[simp] theorem setHostResult_ph (s : State) (r : Option Byte) : (s.setHostResult r).ph = s.ph := rfl
@[simp] theorem setHostResult_ackarm (s : State) (r : Option Byte) : (s.setHostResult r).ackarm = s.ackarm := rfl
@[simp] theorem setHostResult_txd (s : State) (r : Option Byte) : (s.setHostResult r).txd = s.txd := rfl
@[simp] theorem setHostResult_hostResult (s : State) (r : Option Byte) : (s.setHostResult r).hostResult = r := rfl
@[simp] theorem setHostResult_trace (s : State) (r : Option Byte) : (s.setHostResult r).trace = s.trace := rfl

/-! ### `setTrace` -/

@[simp] theorem setTrace_wm (s : State) (l : List PortWord) : (s.setTrace l).wm = s.wm := rfl
@[simp] theorem setTrace_rm (s : State) (l : List PortWord) : (s.setTrace l).rm = s.rm := rfl
@[simp] theorem setTrace_cv (s : State) (l : List PortWord) : (s.setTrace l).cv = s.cv := rfl
@[simp] theorem setTrace_ca (s : State) (l : List PortWord) : (s.setTrace l).ca = s.ca := rfl
@[simp] theorem setTrace_ph (s : State) (l : List PortWord) : (s.setTrace l).ph = s.ph := rfl
@[simp] theorem setTrace_ackarm (s : State) (l : List PortWord) : (s.setTrace l).ackarm = s.ackarm := rfl
@[simp] theorem setTrace_txd (s : State) (l : List PortWord) : (s.setTrace l).txd = s.txd := rfl
@[simp] theorem setTrace_hostResult (s : State) (l : List PortWord) : (s.setTrace l).hostResult = s.hostResult := rfl
@[simp] theorem setTrace_trace (s : State) (l : List PortWord) : (s.setTrace l).trace = l := rfl

/-! ### `setCursor` -/

@[simp] theorem setCursor_wm (s : State) (c : Option Byte) : (s.setCursor c).wm = s.wm := by
  cases c <;> rfl
@[simp] theorem setCursor_rm (s : State) (c : Option Byte) : (s.setCursor c).rm = s.rm := by
  cases c <;> rfl
@[simp] theorem setCursor_none_cv (s : State) : (s.setCursor none).cv = false := rfl
@[simp] theorem setCursor_some_cv (s : State) (v : Byte) : (s.setCursor (some v)).cv = true := rfl
@[simp] theorem setCursor_none_ca (s : State) : (s.setCursor none).ca = 0#8 := rfl
@[simp] theorem setCursor_some_ca (s : State) (v : Byte) : (s.setCursor (some v)).ca = v := rfl
@[simp] theorem setCursor_ph (s : State) (c : Option Byte) : (s.setCursor c).ph = s.ph := by
  cases c <;> rfl
@[simp] theorem setCursor_ackarm (s : State) (c : Option Byte) : (s.setCursor c).ackarm = s.ackarm := by
  cases c <;> rfl
@[simp] theorem setCursor_txd (s : State) (c : Option Byte) : (s.setCursor c).txd = s.txd := by
  cases c <;> rfl
@[simp] theorem setCursor_hostResult (s : State) (c : Option Byte) : (s.setCursor c).hostResult = s.hostResult := by
  cases c <;> rfl
@[simp] theorem setCursor_trace (s : State) (c : Option Byte) : (s.setCursor c).trace = s.trace := by
  cases c <;> rfl

/-! ### `setArray` -/

@[simp] theorem setArray_wm_wm (s : State) (m : Memory) : (s.setArray .wm m).wm = m := rfl
@[simp] theorem setArray_rm_wm (s : State) (m : Memory) : (s.setArray .rm m).wm = s.wm := rfl
@[simp] theorem setArray_rm_rm (s : State) (m : Memory) : (s.setArray .rm m).rm = m := rfl
@[simp] theorem setArray_wm_rm (s : State) (m : Memory) : (s.setArray .wm m).rm = s.rm := rfl
@[simp] theorem setArray_cv (s : State) (S : ArrayId) (m : Memory) : (s.setArray S m).cv = s.cv := by
  cases S <;> rfl
@[simp] theorem setArray_ca (s : State) (S : ArrayId) (m : Memory) : (s.setArray S m).ca = s.ca := by
  cases S <;> rfl
@[simp] theorem setArray_ph (s : State) (S : ArrayId) (m : Memory) : (s.setArray S m).ph = s.ph := by
  cases S <;> rfl
@[simp] theorem setArray_ackarm (s : State) (S : ArrayId) (m : Memory) : (s.setArray S m).ackarm = s.ackarm := by
  cases S <;> rfl
@[simp] theorem setArray_txd (s : State) (S : ArrayId) (m : Memory) : (s.setArray S m).txd = s.txd := by
  cases S <;> rfl
@[simp] theorem setArray_hostResult (s : State) (S : ArrayId) (m : Memory) : (s.setArray S m).hostResult = s.hostResult := by
  cases S <;> rfl
@[simp] theorem setArray_trace (s : State) (S : ArrayId) (m : Memory) : (s.setArray S m).trace = s.trace := by
  cases S <;> rfl

/-! ### The views `cursor` and `array` -/

@[simp] theorem cursor_setCursor (s : State) (c : Option Byte) : (s.setCursor c).cursor = c := by
  cases c <;> rfl
@[simp] theorem cursor_setPh (s : State) (p : Phase) : (s.setPh p).cursor = s.cursor := rfl
@[simp] theorem array_setPh (s : State) (p : Phase) : (s.setPh p).array = s.array := rfl
@[simp] theorem cursor_setAck (s : State) (d : AckDec) : (s.setAck d).cursor = s.cursor := rfl
@[simp] theorem array_setAck (s : State) (d : AckDec) : (s.setAck d).array = s.array := rfl
@[simp] theorem cursor_setTxd (s : State) (v : Byte) : (s.setTxd v).cursor = s.cursor := rfl
@[simp] theorem array_setTxd (s : State) (v : Byte) : (s.setTxd v).array = s.array := rfl
@[simp] theorem cursor_setHostResult (s : State) (r : Option Byte) : (s.setHostResult r).cursor = s.cursor := rfl
@[simp] theorem array_setHostResult (s : State) (r : Option Byte) : (s.setHostResult r).array = s.array := rfl
@[simp] theorem cursor_setTrace (s : State) (l : List PortWord) : (s.setTrace l).cursor = s.cursor := rfl
@[simp] theorem array_setTrace (s : State) (l : List PortWord) : (s.setTrace l).array = s.array := rfl
@[simp] theorem cursor_setArray (s : State) (S : ArrayId) (m : Memory) :
    (s.setArray S m).cursor = s.cursor := by
  cases S <;> rfl
@[simp] theorem array_setCursor (s : State) (c : Option Byte) : (s.setCursor c).array = s.array := by
  cases c <;> rfl
@[simp] theorem array_wm (s : State) : s.array .wm = s.wm := rfl
@[simp] theorem array_rm (s : State) : s.array .rm = s.rm := rfl
@[simp] theorem array_setArray_self (s : State) (S : ArrayId) (m : Memory) :
    (s.setArray S m).array S = m := by
  cases S <;> rfl
theorem array_setArray_other (s : State) (S T : ArrayId) (m : Memory) (h : T ≠ S) :
    (s.setArray S m).array T = s.array T := by
  cases S <;> cases T <;> first | rfl | exact absurd rfl h

/-- The cursor is unset exactly when `CV = 0`. -/
theorem cursor_eq_none_iff (s : State) : s.cursor = none ↔ s.cv = false := by
  cases h : s.cv <;> simp [cursor, h]

/-- The cursor is `Some(v)` exactly when `CV = 1` and `CA = v` (R21). -/
theorem cursor_eq_some_iff (s : State) (v : Byte) : s.cursor = some v ↔ s.cv = true ∧ s.ca = v := by
  cases h : s.cv <;> simp [cursor, h]

end Sys2Proof.Machine.State
end

