-- ==== Sys2Proof/Laws/Ops.lean ====
section
/-! SUPPORT. One spec lemma a shared operation: what a read after a write gives, what the successor is, what the Other
path, re-addressing and the host operations leave. -/

namespace Sys2Proof.Machine

/-! ### Arithmetic -/

theorem succ_eq_add_one (i : Index) : succ i = i + 1#8 := by
  apply BitVec.eq_of_toNat_eq
  simp [succ, Config.memSize]

theorem succ_toNat (i : Index) : (succ i).toNat = (i.toNat + 1) % 256 := by
  simp [succ, Config.memSize]

theorem succ_eq_terminal_iff (i : Index) : succ i = Config.terminal ↔ i = 254#8 := by
  rw [succ_eq_add_one, Config.terminal]
  constructor
  · intro h
    have := congrArg (· - 1#8) h
    simpa using this
  · rintro rfl; rfl

theorem succ_defaultTxOffset : succ Config.defaultTxOffset = 1#8 := by decide

theorem ackFor_eq_nack_iff (n : Index) : ackFor n = .nack ↔ n = Config.terminal := by
  unfold ackFor
  split <;> simp [*]

theorem ackFor_eq_ack_iff (n : Index) : ackFor n = .ack ↔ n ≠ Config.terminal := by
  unfold ackFor
  split <;> simp [*]

/-- The decision an accepted data event arms is `NACK` exactly at index 254 (R77, R83). -/
theorem ackFor_succ (i : Index) : ackFor (succ i) = if i = 254#8 then .nack else .ack := by
  simp only [ackFor, succ_eq_terminal_iff]

/-! ### The arrays -/

theorem memRead_memWrite (S T : ArrayId) (i k : Index) (v : Byte) (s : State) :
    memRead T k (memWrite S i v s) = if T = S ∧ k = i then v else memRead T k s := by
  by_cases hT : T = S
  · subst hT
    by_cases hk : k = i
    · subst hk
      simp [memRead, memWrite, Memory.get?_put_self]
    · have hn : k.toNat ≠ i.toNat := fun h => hk (BitVec.eq_of_toNat_eq h)
      simp [memRead, memWrite, Memory.get?_put_other _ _ _ _ hn, hk]
  · simp [memRead, memWrite, State.array_setArray_other _ _ _ _ hT, hT]

theorem memRead_memWrite_self (S : ArrayId) (i : Index) (v : Byte) (s : State) :
    memRead S i (memWrite S i v s) = v := by
  simp [memRead_memWrite]

theorem memRead_memWrite_other (S : ArrayId) (i k : Index) (v : Byte) (s : State) (h : k ≠ i) :
    memRead S k (memWrite S i v s) = memRead S k s := by
  simp [memRead_memWrite, h]

/-- What a read gives depends on the array alone. -/
theorem memRead_congr (S : ArrayId) (i : Index) (s t : State) (h : s.array S = t.array S) :
    memRead S i s = memRead S i t := by
  simp only [memRead, h]

@[simp] theorem memRead_setPh (S : ArrayId) (i : Index) (s : State) (p : Phase) :
    memRead S i (s.setPh p) = memRead S i s := rfl
@[simp] theorem memRead_setAck (S : ArrayId) (i : Index) (s : State) (d : AckDec) :
    memRead S i (s.setAck d) = memRead S i s := rfl
@[simp] theorem memRead_setTxd (S : ArrayId) (i : Index) (s : State) (v : Byte) :
    memRead S i (s.setTxd v) = memRead S i s := rfl
@[simp] theorem memRead_setHostResult (S : ArrayId) (i : Index) (s : State) (r : Option Byte) :
    memRead S i (s.setHostResult r) = memRead S i s := rfl
@[simp] theorem memRead_setTrace (S : ArrayId) (i : Index) (s : State) (l : List PortWord) :
    memRead S i (s.setTrace l) = memRead S i s := rfl
@[simp] theorem memRead_setCursor (S : ArrayId) (i : Index) (s : State) (c : Option Byte) :
    memRead S i (s.setCursor c) = memRead S i s :=
  memRead_congr S i _ _ (by simp)
@[simp] theorem memRead_advanceCursor (S : ArrayId) (i : Index) (s : State) (x : Index) :
    memRead S i (advanceCursor x s) = memRead S i s :=
  memRead_setCursor S i s _

@[simp] theorem memWrite_cv (S : ArrayId) (i : Index) (v : Byte) (s : State) : (memWrite S i v s).cv = s.cv := by
  simp [memWrite]
@[simp] theorem memWrite_ca (S : ArrayId) (i : Index) (v : Byte) (s : State) : (memWrite S i v s).ca = s.ca := by
  simp [memWrite]
@[simp] theorem memWrite_ph (S : ArrayId) (i : Index) (v : Byte) (s : State) : (memWrite S i v s).ph = s.ph := by
  simp [memWrite]
@[simp] theorem memWrite_ackarm (S : ArrayId) (i : Index) (v : Byte) (s : State) :
    (memWrite S i v s).ackarm = s.ackarm := by
  simp [memWrite]
@[simp] theorem memWrite_txd (S : ArrayId) (i : Index) (v : Byte) (s : State) : (memWrite S i v s).txd = s.txd := by
  simp [memWrite]
@[simp] theorem memWrite_hostResult (S : ArrayId) (i : Index) (v : Byte) (s : State) :
    (memWrite S i v s).hostResult = s.hostResult := by
  simp [memWrite]
@[simp] theorem memWrite_trace (S : ArrayId) (i : Index) (v : Byte) (s : State) :
    (memWrite S i v s).trace = s.trace := by
  simp [memWrite]
@[simp] theorem memWrite_wm_rm (i : Index) (v : Byte) (s : State) : (memWrite .wm i v s).rm = s.rm := rfl
@[simp] theorem memWrite_rm_wm (i : Index) (v : Byte) (s : State) : (memWrite .rm i v s).wm = s.wm := rfl
@[simp] theorem memWrite_wm_wm (i : Index) (v : Byte) (s : State) :
    (memWrite .wm i v s).wm = Memory.put s.wm i.toNat v := rfl
@[simp] theorem memWrite_rm_rm (i : Index) (v : Byte) (s : State) :
    (memWrite .rm i v s).rm = Memory.put s.rm i.toNat v := rfl
@[simp] theorem cursor_memWrite (S : ArrayId) (i : Index) (v : Byte) (s : State) :
    (memWrite S i v s).cursor = s.cursor := by
  simp [memWrite]
@[simp] theorem cursor_advanceCursor (x : Index) (s : State) : (advanceCursor x s).cursor = some (succ x) := rfl

/-! ### The Other path and re-addressing -/

/-- Everything the Other path does (R86). -/
theorem otherPath_eq (s : State) :
    otherPath s = { s with cv := false, ca := 0#8, ph := .idle, ackarm := .ack } := rfl

theorem otherPath_idem (s : State) : otherPath (otherPath s) = otherPath s := rfl

/-- Everything re-addressing does (R121). -/
theorem readdress_eq (p : Phase) (s : State) : readdress p s = { s with ph := p, ackarm := .ack } := rfl

@[simp] theorem memRead_otherPath (S : ArrayId) (i : Index) (s : State) :
    memRead S i (otherPath s) = memRead S i s := rfl
@[simp] theorem memRead_readdress (S : ArrayId) (i : Index) (p : Phase) (s : State) :
    memRead S i (readdress p s) = memRead S i s := rfl

/-! ### The fit conditions -/

theorem fitsRx_iff (s : State) : fitsRx s = true ↔ s.ph = .rx ∧ s.ackarm = .ack := by
  simp [fitsRx]

theorem fitsTx_iff (s : State) : fitsTx s = true ↔ s.ph = .tx ∧ s.ackarm = .ack := by
  simp [fitsTx]

end Sys2Proof.Machine
end

