-- ==== Sys2Proof/Laws/Exec.lean ====
section
/-! SUPPORT. Each meaning said once: the cases it has, as equations of exec; and the inversion of exec, from which
whole-machine facts follow without unfolding a meaning again. -/

namespace Sys2Proof.Machine

/-! ### The cases of the two data events -/

/-- The offset case of `RXBYTE` (R75). -/
theorem execRxbyte_offset (v : Byte) (s : State) (hf : fitsRx s = true) (hc : s.cursor = none) :
    execRxbyte v s = .next ((s.setCursor (some v)).setAck .ack) := by
  simp [execRxbyte, hf, hc]

/-- The data case of `RXBYTE` (R75). -/
theorem execRxbyte_data (v : Byte) (s : State) (idx : Index) (hf : fitsRx s = true) (hc : s.cursor = some idx) :
    execRxbyte v s = .next ((advanceCursor idx (memWrite .wm idx v s)).setAck (ackFor (succ idx))) := by
  simp [execRxbyte, hf, hc]

/-- The rejected case of `RXBYTE` (R89). -/
theorem execRxbyte_rejected (v : Byte) (s : State) (hf : fitsRx s = false) :
    execRxbyte v s = .next (otherPath s) := by
  simp [execRxbyte, hf]

/-- The accepted case of `TXREQ` (R81). -/
theorem execTxreq_accepted (s : State) (hf : fitsTx s = true) :
    execTxreq s =
      .next ((advanceCursor (txIndex s) (s.setTxd (memRead .rm (txIndex s) s))).setAck (ackFor (succ (txIndex s)))) := by
  simp [execTxreq, hf]

/-- The rejected case of `TXREQ` (R89). -/
theorem execTxreq_rejected (s : State) (hf : fitsTx s = false) : execTxreq s = .next (otherPath s) := by
  simp [execTxreq, hf]

/-! ### What a step can do -/

/-- Everything a step of any instruction can do: a next state is one of these nine, each with its guard. -/
inductive StepCase (s : State) : Instr → State → Prop where
  | addrW : StepCase s .addrW (readdress .rx (s.setCursor none))
  | rxOffset (v : Byte) (hf : fitsRx s = true) (hc : s.cursor = none) :
      StepCase s (.rxbyte v) ((s.setCursor (some v)).setAck .ack)
  | rxData (v : Byte) (idx : Index) (hf : fitsRx s = true) (hc : s.cursor = some idx) :
      StepCase s (.rxbyte v) ((advanceCursor idx (memWrite .wm idx v s)).setAck (ackFor (succ idx)))
  | rxRejected (v : Byte) (hf : fitsRx s = false) : StepCase s (.rxbyte v) (otherPath s)
  | addrR : StepCase s .addrR (readdress .tx s)
  | txAccepted (hf : fitsTx s = true) :
      StepCase s .txreq
        ((advanceCursor (txIndex s) (s.setTxd (memRead .rm (txIndex s) s))).setAck (ackFor (succ (txIndex s))))
  | txRejected (hf : fitsTx s = false) : StepCase s .txreq (otherPath s)
  | other : StepCase s .other (otherPath s)
  | hrdWm (i : Index) : StepCase s (.hrdWm i) (hostRead .wm i s)
  | hwrWm (i : Index) (d : Byte) : StepCase s (.hwrWm i d) (hostWrite .wm i d s)
  | hrdRm (i : Index) : StepCase s (.hrdRm i) (hostRead .rm i s)
  | hwrRm (i : Index) (d : Byte) : StepCase s (.hwrRm i d) (hostWrite .rm i d s)

/-- The inversion of exec: if it answers a next state, one of the cases holds. -/
theorem exec_stepCase (i : Instr) (s t : State) (h : exec i s = .next t) : StepCase s i t := by
  cases i with
  | addrW => cases h; exact .addrW
  | rxbyte v =>
    cases hf : fitsRx s with
    | false => rw [exec, execRxbyte_rejected v s hf] at h; cases h; exact .rxRejected v hf
    | true =>
      cases hc : s.cursor with
      | none => rw [exec, execRxbyte_offset v s hf hc] at h; cases h; exact .rxOffset v hf hc
      | some idx => rw [exec, execRxbyte_data v s idx hf hc] at h; cases h; exact .rxData v idx hf hc
  | addrR => cases h; exact .addrR
  | txreq =>
    cases hf : fitsTx s with
    | false => rw [exec, execTxreq_rejected s hf] at h; cases h; exact .txRejected hf
    | true => rw [exec, execTxreq_accepted s hf] at h; cases h; exact .txAccepted hf
  | other => cases h; exact .other
  | hrdWm x => cases h; exact .hrdWm x
  | hwrWm x d => cases h; exact .hwrWm x d
  | hrdRm x => cases h; exact .hrdRm x
  | hwrRm x d => cases h; exact .hwrRm x d

/-- The cases are no more than exec does. -/
theorem stepCase_exec (i : Instr) (s t : State) (h : StepCase s i t) : exec i s = .next t := by
  cases h with
  | rxOffset v hf hc => exact execRxbyte_offset v s hf hc
  | rxData v idx hf hc => exact execRxbyte_data v s idx hf hc
  | rxRejected v hf => exact execRxbyte_rejected v s hf
  | txAccepted hf => exact execTxreq_accepted s hf
  | txRejected hf => exact execTxreq_rejected s hf
  | _ => rfl

/-- What a host operation does depends on the arrays alone, and reaches the arrays and its answer alone (R40): two states
with the same arrays get the same arrays and the same answer from it, and each keeps the rest as it was. -/
theorem exec_host_congr (i : Instr) (s u : State) (hi : isEvent i = false) (hw : s.wm = u.wm) (hr : s.rm = u.rm) :
    ∃ s' u', exec i s = .next s' ∧ exec i u = .next u' ∧
      s' = { s with wm := u'.wm, rm := u'.rm, hostResult := u'.hostResult } ∧
      u' = { u with wm := u'.wm, rm := u'.rm, hostResult := u'.hostResult } := by
  cases i <;> simp only [isEvent, Instr.port, beq_eq_false_iff_ne, ne_eq, reduceCtorEq, not_true_eq_false] at hi <;>
    refine ⟨_, _, rfl, rfl, ?_, ?_⟩ <;>
    simp [hostRead, hostWrite, memWrite, memRead, State.array, State.setArray, State.setHostResult, hw, hr]

/-- No instruction reads or writes the rest of the trace: it can be replaced before or after. -/
theorem stepCase_setTrace (i : Instr) (s t : State) (l : List PortWord) (h : StepCase s i t) :
    StepCase (s.setTrace l) i (t.setTrace l) := by
  cases h with
  | addrW => exact .addrW
  | rxOffset v hf hc => exact .rxOffset v hf hc
  | rxData v idx hf hc => exact .rxData v idx hf hc
  | rxRejected v hf => exact .rxRejected v hf
  | addrR => exact .addrR
  | txAccepted hf => exact .txAccepted hf
  | txRejected hf => exact .txRejected hf
  | other => exact .other
  | hrdWm x => exact .hrdWm x
  | hwrWm x d => exact .hwrWm x d
  | hrdRm x => exact .hrdRm x
  | hwrRm x d => exact .hwrRm x d

end Sys2Proof.Machine
end

