-- ==== Sys2Proof/Laws/PerInstr.lean ====
section
/-! SUPPORT. The per-instruction family EncodingRow: every instruction's encoding stands at its own boundary, is a
word of a row of the opcode table that carries its mnemonic (30_encoding.md R72), and is canonical (R59). -/

namespace Sys2Proof.Laws.EncodingRow

/-- The encoding's boundary, table row and canonical form. -/
def Statement (i : Instr) : Prop :=
  (encode i).port = i.port ∧ (encode i).canonical = true ∧
    ∃ r ∈ opcodeTable, r.mnemonic = i.mnemonic ∧ r.hasWord (encode i) = true

/-- A packed event word is a word of the row of its kind. -/
theorem hasWord_packEv (m : String) (k : BitVec 3) (v : Byte) :
    OpcodeRow.hasWord ⟨m, .event, k.toNat * 256, 0x700⟩ (.ev (packEv k v)) = true := by
  simp [OpcodeRow.hasWord, PortWord.port, PortWord.number, packEv_mask]

/-- A packed host word is a word of the row of its `sel` and `wr`. -/
theorem hasWord_packHw (m : String) (a b : BitVec 1) (i : Index) (d : Byte) :
    OpcodeRow.hasWord ⟨m, .host, a.toNat * 131072 + b.toNat * 65536, 0x30000⟩ (.hw (packHw a b i d)) = true := by
  simp [OpcodeRow.hasWord, PortWord.port, PortWord.number, packHw_mask]

theorem addrW : Statement .addrW :=
  ⟨rfl, rfl, ⟨"ADDR_W", .event, 0x100, 0x700⟩, by simp [opcodeTable, eventRows], rfl, hasWord_packEv _ 1#3 0#8⟩

theorem rxbyte (v : Byte) : Statement (.rxbyte v) :=
  ⟨rfl, by simp [encode, PortWord.canonical, evCanonical], ⟨"RXBYTE", .event, 0x200, 0x700⟩,
    by simp [opcodeTable, eventRows], rfl, hasWord_packEv _ 2#3 v⟩

theorem addrR : Statement .addrR :=
  ⟨rfl, rfl, ⟨"ADDR_R", .event, 0x300, 0x700⟩, by simp [opcodeTable, eventRows], rfl, hasWord_packEv _ 3#3 0#8⟩

theorem txreq : Statement .txreq :=
  ⟨rfl, rfl, ⟨"TXREQ", .event, 0x400, 0x700⟩, by simp [opcodeTable, eventRows], rfl, hasWord_packEv _ 4#3 0#8⟩

theorem other : Statement .other :=
  ⟨rfl, rfl, ⟨"OTHER", .event, 0x500, 0x700⟩, by simp [opcodeTable, eventRows], rfl, hasWord_packEv _ 5#3 0#8⟩

theorem hrdWm (i : Index) : Statement (.hrdWm i) :=
  ⟨rfl, by simp [encode, PortWord.canonical, hwCanonical], ⟨"HRD_WM", .host, 0x00000, 0x30000⟩,
    by simp [opcodeTable, hostRows], rfl, hasWord_packHw _ 0#1 0#1 i 0#8⟩

theorem hwrWm (i : Index) (d : Byte) : Statement (.hwrWm i d) :=
  ⟨rfl, by simp [encode, PortWord.canonical, hwCanonical], ⟨"HWR_WM", .host, 0x10000, 0x30000⟩,
    by simp [opcodeTable, hostRows], rfl, hasWord_packHw _ 0#1 1#1 i d⟩

theorem hrdRm (i : Index) : Statement (.hrdRm i) :=
  ⟨rfl, by simp [encode, PortWord.canonical, hwCanonical], ⟨"HRD_RM", .host, 0x20000, 0x30000⟩,
    by simp [opcodeTable, hostRows], rfl, hasWord_packHw _ 1#1 0#1 i 0#8⟩

theorem hwrRm (i : Index) (d : Byte) : Statement (.hwrRm i d) :=
  ⟨rfl, by simp [encode, PortWord.canonical, hwCanonical], ⟨"HWR_RM", .host, 0x30000, 0x30000⟩,
    by simp [opcodeTable, hostRows], rfl, hasWord_packHw _ 1#1 1#1 i d⟩

end Sys2Proof.Laws.EncodingRow
end

