-- ==== Sys2Proof/Laws/Trace.lean ====
section
/-! SUPPORT. The laws of a run: its first step, its parts one after the other; and of a step: which word it takes. -/

namespace Sys2Proof.Machine

@[simp] theorem runTrace_nil (s : State) : runTrace [] s = .next s := rfl

/-- The first step of a run that answers a next state. -/
theorem runTrace_cons (i : Instr) (is : List Instr) (s t : State) (h : exec i s = .next t) :
    runTrace (i :: is) s = runTrace is t := by
  simp [runTrace, h]

/-- A run that answers a next state has a first step that does. -/
theorem runTrace_cons_inv (i : Instr) (is : List Instr) (s t : State) (h : runTrace (i :: is) s = .next t) :
    ∃ u, exec i s = .next u ∧ runTrace is u = .next t := by
  simp only [runTrace] at h
  split at h
  · rename_i u hu; exact ⟨u, hu, h⟩
  · cases h
  · cases h

/-- A run of two traces one after the other. -/
theorem runTrace_append (is js : List Instr) (s t : State) (h : runTrace is s = .next t) :
    runTrace (is ++ js) s = runTrace js t := by
  induction is generalizing s with
  | nil => cases h; rfl
  | cons i is ih =>
    obtain ⟨u, hu, hr⟩ := runTrace_cons_inv i is s t h
    rw [List.cons_append, runTrace_cons i (is ++ js) s u hu]
    exact ih u hr

/-! ### The host's steps of a trace -/

@[simp] theorem hostSteps_nil : hostSteps [] = [] := rfl

@[simp] theorem hostSteps_append (is js : List Instr) : hostSteps (is ++ js) = hostSteps is ++ hostSteps js :=
  List.filter_append ..

theorem hostSteps_event (i : Instr) (h : isEvent i = true) : hostSteps [i] = [] := by
  simp [hostSteps, h]

theorem hostSteps_host (i : Instr) (h : isEvent i = false) : hostSteps [i] = [i] := by
  simp [hostSteps, h]

/-- A trace of requests alone has no host step. -/
theorem hostSteps_requests (n : Nat) : hostSteps (requests n) = [] := by
  simp [hostSteps, requests, isEvent, Instr.port]

/-! ### Offsets and the transfer length -/

theorem offsetAt_zero (a : Byte) : offsetAt a 0 = a := by
  apply BitVec.eq_of_toNat_eq; simp [offsetAt]

theorem succ_offsetAt (a : Byte) (k : Nat) : succ (offsetAt a k) = offsetAt a (k + 1) := by
  apply BitVec.eq_of_toNat_eq; rw [succ_toNat]; simp [offsetAt]; omega

theorem offsetAt_inj (a : Byte) (j k : Nat) (hj : j < 256) (hk : k < 256) (h : offsetAt a j = offsetAt a k) :
    j = k := by
  have := congrArg BitVec.toNat h; simp [offsetAt] at this; omega

theorem acceptLimit_pos (a : Byte) : 1 ≤ acceptLimit a := by
  unfold acceptLimit; split <;> omega

theorem acceptLimit_le (a : Byte) : acceptLimit a ≤ 256 := by
  unfold acceptLimit; split <;> omega

/-- The last byte of a transaction, and no earlier one, uses index 254 (R104). -/
theorem offsetAt_eq_254_iff (a : Byte) (k : Nat) (h : k < acceptLimit a) :
    offsetAt a k = 254#8 ↔ k + 1 = acceptLimit a := by
  have : offsetAt a k = 254#8 ↔ (a.toNat + k) % 256 = 254 := by
    rw [← BitVec.toNat_inj]; simp [offsetAt]
  rw [this]; unfold acceptLimit at *; split <;> split at h <;> omega

/-- A transaction that runs to its limit leaves the cursor at the terminal index (R104). -/
theorem offsetAt_acceptLimit (a : Byte) : offsetAt a (acceptLimit a) = 255#8 := by
  apply BitVec.eq_of_toNat_eq; simp [offsetAt, acceptLimit]; split <;> omega

/-! ### Steps -/

/-- With no word presented, a step waits. -/
theorem step_of_no_word (s : State) (h : nextWord s = none) : step s = .next s := by
  simp [step, h]

/-- With a word presented, a step runs the instruction it decodes to. -/
theorem step_of_word (s : State) (w : PortWord) (rest : List PortWord) (h : nextWord s = some (w, rest)) :
    step s = exec (decode w) (s.setTrace rest) := by
  simp [step, h]

/-- The word that arrives next is the head of the rest of the trace. -/
theorem nextWord_eq (s : State) : nextWord s = match s.trace with | [] => none | w :: rest => some (w, rest) := rfl

/-- A word presented is the one that arrives next. -/
@[simp] theorem nextWord_present (w : PortWord) (s : State) : nextWord (present w s) = some (w, s.trace) := rfl

/-- A run of the machine from a state whose step answers a next state goes on from there. -/
theorem core_run_succ (k : Nat) (s t : State) (h : step s = .next t) :
    Host.Core.run Sys2Proof.core (k + 1) s = Host.Core.run Sys2Proof.core k t := by
  have h' : Sys2Proof.core.step s = .next t := h
  simp only [Host.Core.run, h']

end Sys2Proof.Machine
end

