-- ==== Sys2Proof/Tests/Slice0.lean ====
section
/-! SUPPORT. Tests on fixed values, their expected results taken from 95_test_vectors.md and from the opcode table, and
for every statement with hypotheses a concrete state and operands that meet them. -/

namespace Sys2Proof.Tests

open Sys2Proof Sys2Proof.Machine

/-- A small state: the arrays of 95_test_vectors.md 2.5 and 2.7, `TXD = 0x77`, and the given phase, cursor and
acknowledge decision. -/
def st (p : Phase) (c : Option Byte) (d : AckDec) : State where
  wm := [(16, 0xAB#8)]
  rm := [(0, 0x0F#8), (1, 0x1E#8), (5, 0xAA#8), (253, 0xD3#8), (254, 0x5A#8), (255, 0xA5#8)]
  cv := c.isSome
  ca := c.getD 0#8
  ph := p
  ackarm := d
  txd := 0x77#8
  hostResult := none
  trace := []

/-- (phase, cursor, acknowledge decision, `TXD`), as 95_test_vectors.md writes a state. -/
def view : Host.Outcome State Fault Refusal → Option (Phase × Option Byte × AckDec × Byte)
  | .next t => some (t.ph, t.cursor, t.ackarm, t.txd)
  | .fault _ => none
  | .refused _ => none

/-! ### What a boundary refuses (R57, R63) -/

theorem smoke_event_number_wider_than_eleven_bits :
    Port.event.wfNumber 2048 = false ∧ Port.event.wfNumber 2047 = true := by decide

theorem smoke_host_number_wider_than_eighteen_bits :
    Port.host.wfNumber 262144 = false ∧ Port.host.wfNumber 262143 = true := by decide

theorem smoke_wide_numbers_are_rejected_by_name :
    readPort .event 2048 = .error .eventWordTooWide ∧ readPort .host 262144 = .error .hostWordTooWide := ⟨rfl, rfl⟩

theorem smoke_table_words_too_wide : decodeTableWord 16 2048 = none ∧ decodeTableWord 24 262144 = none := by decide

/-- Words that decode but are not canonical (R59, R60, R63): value bits on ADDR_W, reserved kinds, data on a read. -/
theorem smoke_words_not_canonical :
    PortWord.canonical (.ev 0x1A7#11) = false ∧ PortWord.canonical (.ev 0x000#11) = false ∧
    PortWord.canonical (.ev 0x7FF#11) = false ∧ PortWord.canonical (.hw 0x0FF37#18) = false ∧
    PortWord.canonical (.ev 0x2FF#11) = true ∧ PortWord.canonical (.hw 0x3FFFF#18) = true := by decide

/-! ### Decoding: words written out bit by bit from the fields of R57 and R63 -/

/-- kind 001, any value: ADDR_W (V5, V6). -/
theorem test_decode_ADDR_W : decode (.ev 0b00110100111#11) = .addrW := by decide

/-- kind 010, value 11111110: RXBYTE 0xFE. -/
theorem test_decode_RXBYTE : decode (.ev 0b01011111110#11) = .rxbyte 0xFE#8 := by decide

/-- kind 011: ADDR_R (V9). -/
theorem test_decode_ADDR_R : decode (.ev 0b01100000000#11) = .addrR := by decide

/-- kind 100, value 01010101: TXREQ (V10). -/
theorem test_decode_TXREQ : decode (.ev 0b10001010101#11) = .txreq := by decide

/-- kinds 101, 000, 110 and 111: OTHER (V11, V12). -/
theorem test_decode_OTHER :
    decode (.ev 0b10100000000#11) = .other ∧ decode (.ev 0b00011111111#11) = .other ∧
    decode (.ev 0b11010101011#11) = .other ∧ decode (.ev 0b11100000000#11) = .other := by decide

/-- sel 0, wr 0, index 11111111, data ignored: HRD_WM 255 (V14). -/
theorem test_decode_HRD_WM : decode (.hw 0b001111111100110111#18) = .hrdWm 255#8 := by decide

/-- sel 0, wr 1, index 10000000, data 01111111: HWR_WM 128, 0x7F (V15). -/
theorem test_decode_HWR_WM : decode (.hw 0b011000000001111111#18) = .hwrWm 128#8 0x7F#8 := by decide

/-- sel 1, wr 0, index 00000101: HRD_RM 5 (V16). -/
theorem test_decode_HRD_RM : decode (.hw 0b100000010100000000#18) = .hrdRm 5#8 := by decide

/-- sel 1, wr 1, index 00000101, data 10101010: HWR_RM 5, 0xAA (V16). -/
theorem test_decode_HWR_RM : decode (.hw 0b110000010110101010#18) = .hwrRm 5#8 0xAA#8 := by decide

/-- Every row of the opcode table, by its `match` word. -/
theorem test_table_words_decode :
    decodeTableWord 16 0x100 = some .addrW ∧ decodeTableWord 16 0x200 = some (.rxbyte 0#8) ∧
    decodeTableWord 16 0x300 = some .addrR ∧ decodeTableWord 16 0x400 = some .txreq ∧
    decodeTableWord 16 0x500 = some .other ∧ decodeTableWord 16 0x000 = some .other ∧
    decodeTableWord 16 0x600 = some .other ∧ decodeTableWord 16 0x700 = some .other ∧
    decodeTableWord 24 0x00000 = some (.hrdWm 0#8) ∧ decodeTableWord 24 0x10000 = some (.hwrWm 0#8 0#8) ∧
    decodeTableWord 24 0x20000 = some (.hrdRm 0#8) ∧ decodeTableWord 24 0x30000 = some (.hwrRm 0#8 0#8) := by decide

/-- No word is of two rows of one boundary (R72). -/
theorem test_table_rows_disjoint :
    (eventRows.map fun r => r.pattern &&& 0x700).Nodup ∧ (hostRows.map fun r => r.pattern &&& 0x30000).Nodup := by decide

/-- Each row's word runs as the first instruction after reset: the next step is that instruction, and it goes on. -/
theorem test_first_step_after_reset_events :
    step (State.reset.withFetchWord 16 0x100) = exec .addrW State.reset ∧
    step (State.reset.withFetchWord 16 0x200) = exec (.rxbyte 0#8) State.reset ∧
    step (State.reset.withFetchWord 16 0x300) = exec .addrR State.reset ∧
    step (State.reset.withFetchWord 16 0x400) = exec .txreq State.reset ∧
    step (State.reset.withFetchWord 16 0x500) = exec .other State.reset ∧
    step (State.reset.withFetchWord 16 0x000) = exec .other State.reset ∧
    step (State.reset.withFetchWord 16 0x600) = exec .other State.reset ∧
    step (State.reset.withFetchWord 16 0x700) = exec .other State.reset :=
  ⟨rfl, rfl, rfl, rfl, rfl, rfl, rfl, rfl⟩

theorem test_first_step_after_reset_host :
    step (State.reset.withFetchWord 24 0x00000) = exec (.hrdWm 0#8) State.reset ∧
    step (State.reset.withFetchWord 24 0x10000) = exec (.hwrWm 0#8 0#8) State.reset ∧
    step (State.reset.withFetchWord 24 0x20000) = exec (.hrdRm 0#8) State.reset ∧
    step (State.reset.withFetchWord 24 0x30000) = exec (.hwrRm 0#8 0#8) State.reset := ⟨rfl, rfl, rfl, rfl⟩

/-! ### One step an instruction, from the vectors -/

/-- V17d. -/
theorem test_ADDR_W_clears_terminal_nack :
    view (exec .addrW (st .rx (some 255#8) .nack)) = some (.rx, none, .ack, 0x77#8) := by decide

/-- V17e. -/
theorem test_ADDR_W_from_transmit :
    view (exec .addrW (st .tx (some 7#8) .ack)) = some (.rx, none, .ack, 0x77#8) := by decide

/-- V18h, with the store. -/
theorem test_RXBYTE_reaches_terminal :
    ∃ t, exec (.rxbyte 0x02#8) (st .rx (some 254#8) .ack) = .next t ∧ t.wm = [(16, 0xAB#8), (254, 0x02#8)] ∧
      t.cursor = some 255#8 ∧ t.ackarm = .nack := ⟨_, rfl, by decide⟩

/-- V18d and V18j: offset 255 keeps ACK, and a byte stored there wraps the cursor to 0. -/
theorem test_RXBYTE_offset_255_and_wrap :
    view (exec (.rxbyte 0xFF#8) (st .rx none .ack)) = some (.rx, some 255#8, .ack, 0x77#8) ∧
    view (exec (.rxbyte 0xE1#8) (st .rx (some 255#8) .ack)) = some (.rx, some 0#8, .ack, 0x77#8) := by decide

/-- V19d. -/
theorem test_ADDR_R_rearms_ack_keeps_cursor :
    view (exec .addrR (st .rx (some 255#8) .nack)) = some (.tx, some 255#8, .ack, 0x77#8) := by decide

/-- V20a and V20g: the zero default and the wrap. -/
theorem test_TXREQ_zero_default_and_wrap :
    view (exec .txreq (st .tx none .ack)) = some (.tx, some 1#8, .ack, 0x0F#8) ∧
    view (exec .txreq (st .tx (some 255#8) .ack)) = some (.tx, some 0#8, .ack, 0xA5#8) := by decide

/-- V20d, V20e and V20f: 253 keeps ACK, 254 arms NACK, and the request after is rejected with TXD kept. -/
theorem test_TXREQ_terminal :
    view (exec .txreq (st .tx (some 253#8) .ack)) = some (.tx, some 254#8, .ack, 0xD3#8) ∧
    view (exec .txreq (st .tx (some 254#8) .ack)) = some (.tx, some 255#8, .nack, 0x5A#8) ∧
    view (exec .txreq (st .tx (some 255#8) .nack)) = some (.idle, none, .ack, 0x77#8) := by decide

/-- V21d. -/
theorem test_OTHER_from_terminal :
    view (exec .other (st .rx (some 255#8) .nack)) = some (.idle, none, .ack, 0x77#8) := by decide

/-- V22a. -/
theorem test_HRD_WM : exec (.hrdWm 16#8) (st .idle none .ack) =
    .next { st .idle none .ack with hostResult := some 0xAB#8 } := rfl

/-- V22d. -/
theorem test_HWR_WM : exec (.hwrWm 16#8 0x00#8) (st .rx (some 16#8) .ack) =
    .next { st .rx (some 16#8) .ack with wm := [(16, 0x00#8)] } := rfl

/-- V22f. -/
theorem test_HRD_RM : exec (.hrdRm 5#8) (st .tx (some 5#8) .ack) =
    .next { st .tx (some 5#8) .ack with hostResult := some 0xAA#8 } := rfl

/-- V22e and V22i: index 255 is an ordinary index for the host, which cannot re-arm the engine. -/
theorem test_HWR_RM :
    ∃ t, exec (.hwrRm 255#8 0x3C#8) (st .tx (some 255#8) .nack) = .next t ∧ Memory.get? t.rm 255 = some 0x3C#8 ∧
      view (.next t) = some (.tx, some 255#8, .nack, 0x77#8) := ⟨_, rfl, by decide⟩

/-! ### Witnesses: states and operands that meet each statement's hypotheses -/

theorem witness_StepRunsTheDecodedInstruction :
    { st .idle none .ack with trace := [.ev 0x100#11, .hw 0x00000#18] }.trace = .ev 0x100#11 :: [.hw 0x00000#18] ∧
    (st .idle none .ack).trace = [] ∧ decodeTableWord 16 0x2FF = some (.rxbyte 0xFF#8) ∧
    decodeTableWord 16 2048 = none := by decide

theorem witness_RxbyteTakesTheOffset :
    (st .rx none .ack).ph = .rx ∧ (st .rx none .ack).ackarm = .ack ∧ (st .rx none .ack).cv = false := by decide

theorem witness_RxbyteStoresAtTheCursor :
    ∀ a : Byte, (st .rx (some a) .ack).ph = .rx ∧ (st .rx (some a) .ack).ackarm = .ack ∧
      (st .rx (some a) .ack).cv = true ∧ (st .rx (some a) .ack).ca = a := fun _ => ⟨rfl, rfl, rfl, rfl⟩

theorem witness_MisfitTakesTheOtherPath :
    ¬((st .tx (some 5#8) .ack).ph = .rx ∧ (st .tx (some 5#8) .ack).ackarm = .ack) ∧
    ¬((st .rx (some 255#8) .nack).ph = .rx ∧ (st .rx (some 255#8) .nack).ackarm = .ack) ∧
    ¬((st .idle none .ack).ph = .tx ∧ (st .idle none .ack).ackarm = .ack) ∧
    ¬((st .tx (some 255#8) .nack).ph = .tx ∧ (st .tx (some 255#8) .nack).ackarm = .ack) := by decide

theorem witness_TxreqSuppliesTheByteAtTheCursor :
    (st .tx none .ack).ph = .tx ∧ (st .tx none .ack).ackarm = .ack ∧
    0#8 = (if (st .tx none .ack).cv then (st .tx none .ack).ca else 0#8) ∧
    254#8 = (if (st .tx (some 254#8) .ack).cv then (st .tx (some 254#8) .ack).ca else 0#8) ∧
    255#8 = (if (st .tx (some 255#8) .ack).cv then (st .tx (some 255#8) .ack).ca else 0#8) := by decide

theorem witness_HostReadOfWriteMemory :
    Memory.get? State.reset.wm (255#8 : Index).toNat = none ∧
    Memory.get? (st .idle none .ack).wm (0#8 : Index).toNat = none := ⟨rfl, rfl⟩

theorem witness_HostReadOfReadMemory :
    ∃ t, runTrace [.hwrRm 5#8 0xAA#8, .addrR, .txreq] State.reset = .next t := ⟨_, rfl⟩

theorem witness_HostWriteOfReadMemory :
    (∃ t, (∀ i d, Instr.txreq ≠ .hwrRm i d) ∧ exec .txreq (st .tx (some 255#8) .ack) = .next t) ∧
    (st .tx (some 255#8) .ack).ph = .tx ∧ (st .tx (some 255#8) .ack).ackarm = .ack :=
  ⟨⟨_, by simp, rfl⟩, rfl, rfl⟩

theorem witness_AddressingAndOtherFrame :
    (∃ t, exec .addrW (st .rx (some 255#8) .nack) = .next t) ∧ (∃ t, exec .addrR (st .rx (some 255#8) .nack) = .next t) ∧
    ∃ t, exec .other (st .rx (some 255#8) .nack) = .next t := ⟨⟨_, rfl⟩, ⟨_, rfl⟩, ⟨_, rfl⟩⟩

theorem witness_RxbyteFrame :
    (∃ t, exec (.rxbyte 1#8) (st .rx (some 255#8) .ack) = .next t ∧
      rxStoreIndex? (st .rx (some 255#8) .ack) = some 255#8 ∧ fitsRx (st .rx (some 255#8) .ack) = true) ∧
    (∃ t, exec (.rxbyte 1#8) (st .rx none .ack) = .next t ∧ rxStoreIndex? (st .rx none .ack) = none) ∧
    ∃ t, exec (.rxbyte 1#8) (st .rx (some 255#8) .nack) = .next t ∧ rxStoreIndex? (st .rx (some 255#8) .nack) = none :=
  ⟨⟨_, rfl, by decide, by decide⟩, ⟨_, rfl, by decide⟩, ⟨_, rfl, by decide⟩⟩

theorem witness_TxreqFrame :
    (∃ t, exec .txreq (st .tx (some 254#8) .ack) = .next t ∧ fitsTx (st .tx (some 254#8) .ack) = true) ∧
    ∃ t, exec .txreq (st .tx (some 255#8) .nack) = .next t ∧ fitsTx (st .tx (some 255#8) .nack) = false :=
  ⟨⟨_, rfl, by decide⟩, ⟨_, rfl, by decide⟩⟩

theorem witness_HostReadFrame :
    (∃ t, exec (.hrdWm 16#8) (st .idle none .ack) = .next t) ∧ ∃ t, exec (.hrdRm 255#8) (st .idle none .ack) = .next t :=
  ⟨⟨_, rfl⟩, ⟨_, rfl⟩⟩

theorem witness_HostWriteFrame :
    (∃ t, exec (.hwrWm 255#8 1#8) (st .idle none .ack) = .next t) ∧
    ∃ t, exec (.hwrRm 0#8 1#8) (st .idle none .ack) = .next t := ⟨⟨_, rfl⟩, ⟨_, rfl⟩⟩

/-- A state at the terminal index, with an RXBYTE to come, meets the invariants and steps. -/
theorem witness_EveryStepKeepsTheInvariants :
    Invariants { st .rx (some 254#8) .ack with trace := [.ev 0x2FF#11] } ∧
    Invariants { st .rx (some 255#8) .nack with trace := [.ev 0x2FF#11] } ∧
    (∃ t, step { st .rx (some 254#8) .ack with trace := [.ev 0x2FF#11] } = .next t) ∧
    ∃ t, step { st .rx (some 255#8) .nack with trace := [.ev 0x2FF#11] } = .next t :=
  ⟨⟨by decide, by decide, by decide, by decide, by decide⟩, ⟨by decide, by decide, by decide, by decide, by decide⟩,
    ⟨_, rfl⟩, ⟨_, rfl⟩⟩

theorem witness_InvariantStatesAreSevenClasses :
    Invariants (st .tx (some 255#8) .nack) ∧ Invariants (st .idle none .ack) ∧ Invariants (st .tx (some 255#8) .ack) :=
  ⟨⟨by decide, by decide, by decide, by decide, by decide⟩, ⟨by decide, by decide, by decide, by decide, by decide⟩,
    ⟨by decide, by decide, by decide, by decide, by decide⟩⟩

theorem witness_FitTableRows :
    StateClass.idle.holds (st .idle none .ack) = true ∧ StateClass.rxUnset.holds (st .rx none .ack) = true ∧
    (StateClass.rxSet.holds (st .rx (some 254#8) .ack) = true ∧ (st .rx (some 254#8) .ack).cursor = some 254#8) ∧
    (StateClass.rxSet.holds (st .rx (some 255#8) .ack) = true ∧ (st .rx (some 255#8) .ack).cursor = some 255#8) ∧
    StateClass.rxTerminal.holds (st .rx (some 255#8) .nack) = true ∧
    StateClass.txUnset.holds (st .tx none .ack) = true ∧
    (StateClass.txSet.holds (st .tx (some 254#8) .ack) = true ∧ (st .tx (some 254#8) .ack).cursor = some 254#8) ∧
    StateClass.txTerminal.holds (st .tx (some 255#8) .nack) = true := by decide

theorem witness_CursorMovesAsTabled :
    (∃ t, exec .addrW (st .rx (some 255#8) .nack) = .next t) ∧
    (∃ t, exec (.rxbyte 255#8) (st .rx none .ack) = .next t ∧
      accepted (.rxbyte 255#8) (st .rx none .ack) = true ∧ (st .rx none .ack).cursor = none) ∧
    (∃ t, exec (.rxbyte 3#8) (st .rx (some 255#8) .ack) = .next t ∧
      accepted (.rxbyte 3#8) (st .rx (some 255#8) .ack) = true ∧ (st .rx (some 255#8) .ack).cursor = some 255#8) ∧
    (∃ t, exec (.rxbyte 3#8) (st .rx (some 255#8) .nack) = .next t ∧
      rejected (.rxbyte 3#8) (st .rx (some 255#8) .nack) = true) ∧
    (∃ t, exec .txreq (st .tx none .ack) = .next t ∧
      accepted .txreq (st .tx none .ack) = true ∧ (st .tx none .ack).cursor = none) ∧
    (∃ t, exec .txreq (st .tx (some 254#8) .ack) = .next t ∧
      accepted .txreq (st .tx (some 254#8) .ack) = true ∧ (st .tx (some 254#8) .ack).cursor = some 254#8) ∧
    (∃ t, exec .txreq (st .rx (some 4#8) .ack) = .next t ∧ rejected .txreq (st .rx (some 4#8) .ack) = true) ∧
    ∃ t, exec (.hrdWm 16#8) (st .tx (some 255#8) .nack) = .next t ∧ isEvent (.hrdWm 16#8) = false :=
  ⟨⟨_, rfl⟩, ⟨_, rfl, by decide, by decide⟩, ⟨_, rfl, by decide, by decide⟩, ⟨_, rfl, by decide⟩,
    ⟨_, rfl, by decide, by decide⟩, ⟨_, rfl, by decide, by decide⟩, ⟨_, rfl, by decide⟩, ⟨_, rfl, by decide⟩⟩

/-- CV and ACKARM each on both sides: set and cleared, NACK and ACK. -/
theorem witness_CursorValidAndAckWrittenOnlyAsListed :
    (∃ t, exec (.rxbyte 1#8) (st .rx (some 254#8) .ack) = .next t ∧ t.cv = true ∧ t.ackarm = .nack) ∧
    (∃ t, exec (.rxbyte 1#8) (st .rx (some 253#8) .ack) = .next t ∧ t.cv = true ∧ t.ackarm = .ack) ∧
    (∃ t, exec .txreq (st .tx (some 255#8) .nack) = .next t ∧ t.cv = false ∧ t.ackarm = .ack) ∧
    ∃ t, exec (.hwrWm 0#8 1#8) (st .tx (some 255#8) .nack) = .next t ∧ t.cv = true ∧ t.ackarm = .nack :=
  ⟨⟨_, rfl, by decide⟩, ⟨_, rfl, by decide⟩, ⟨_, rfl, by decide⟩, ⟨_, rfl, by decide⟩⟩

theorem witness_OtherPathErasesHistory :
    ∃ t, exec .other (st .tx (some 255#8) .nack) = .next t := ⟨_, rfl⟩

theorem witness_ArraysShareNoStorage :
    rxStoreIndex? (st .rx (some 255#8) .ack) = some 255#8 ∧ fitsTx (st .tx none .ack) = true ∧
    (∀ x ∈ [Instr.addrW, .rxbyte 5#8, .rxbyte 1#8, .addrR, .txreq], isEvent x = true) ∧
    ∃ t, runTrace [.addrW, .rxbyte 254#8, .rxbyte 1#8, .addrR, .txreq] (st .idle none .ack) = .next t :=
  ⟨by decide, by decide, by decide, ⟨_, rfl⟩⟩

theorem witness_UnreadArraysDoNotInfluenceTheRun :
    (∀ x ∈ [Instr.rxbyte 1#8, .hrdRm 5#8], ∀ k, x ≠ .hrdWm k) ∧
    (∃ t, runTrace [.rxbyte 1#8, .hrdRm 5#8] (st .rx (some 254#8) .ack) = .next t) ∧
    (∀ x ∈ [Instr.rxbyte 1#8, .hrdWm 16#8], x ≠ .txreq ∧ ∀ k, x ≠ .hrdRm k) ∧
    ∃ t, runTrace [.rxbyte 1#8, .hrdWm 16#8] (st .rx (some 254#8) .ack) = .next t :=
  ⟨by simp, ⟨_, rfl⟩, by simp, ⟨_, rfl⟩⟩

theorem witness_HostReachesTheArraysOnly :
    (∀ x ∈ [Instr.hrdWm 16#8, .hwrRm 255#8 1#8], isEvent x = false) ∧
    ∃ t, runTrace [.hrdWm 16#8, .hwrRm 255#8 1#8] (st .tx (some 255#8) .nack) = .next t := ⟨by decide, ⟨_, rfl⟩⟩

/-- An accepted event that is rejected when it comes again (at index 254), and one that is accepted again. -/
theorem witness_ReadsKeepArraysAndWritesRepeat :
    (∃ t, exec .txreq (st .tx (some 254#8) .ack) = .next t ∧ accepted .txreq (st .tx (some 254#8) .ack) = true) ∧
    (∃ t, exec (.hrdWm 16#8) (st .tx none .ack) = .next t) ∧
    (∃ t, exec (.rxbyte 1#8) (st .rx none .ack) = .next t ∧ accepted (.rxbyte 1#8) (st .rx none .ack) = true) ∧
    (Instr.hwrWm 255#8 1#8 = .hwrWm 255#8 1#8 ∨ Instr.hwrWm 255#8 1#8 = .hwrRm 255#8 1#8) :=
  ⟨⟨_, rfl, by decide⟩, ⟨_, rfl⟩, ⟨_, rfl, by decide⟩, .inl rfl⟩

theorem witness_TxdHeldUntilNextAcceptedTxreq :
    (∃ t, exec .txreq (st .tx none .ack) = .next t ∧ accepted .txreq (st .tx none .ack) = true) ∧
    noAcceptedTxreq [.txreq, .addrW, .rxbyte 254#8, .hwrRm 5#8 0#8] (st .tx (some 255#8) .nack) = true ∧
    ∃ t, runTrace [.txreq, .addrW, .rxbyte 254#8, .hwrRm 5#8 0#8] (st .tx (some 255#8) .nack) = .next t :=
  ⟨⟨_, rfl, by decide⟩, by decide, ⟨_, rfl⟩⟩

theorem witness_ReadMemoryHoldsTheLatestHostWrite :
    ∃ t, runTrace [.hwrRm 5#8 1#8, .addrR, .txreq, .hwrRm 5#8 2#8] (st .idle none .ack) = .next t ∧
      latestRmWrite 5#8 [.hwrRm 5#8 1#8, .addrR, .txreq, .hwrRm 5#8 2#8] 0#8 = 2#8 := ⟨_, rfl, by decide⟩

/-- V22g and V22h: the later step of the two wins, whichever agent takes it. -/
theorem witness_WriteMemoryHoldsTheLatestWrite :
    (∃ t, runTrace [.hwrWm 16#8 0x99#8, .rxbyte 0x11#8] (st .rx (some 16#8) .ack) = .next t) ∧
    latestWmWrite 16#8 [.hwrWm 16#8 0x99#8, .rxbyte 0x11#8] (st .rx (some 16#8) .ack) 0#8 = 0x11#8 ∧
    (∃ t, runTrace [.rxbyte 0x11#8, .hwrWm 16#8 0x99#8] (st .rx (some 16#8) .ack) = .next t) ∧
    latestWmWrite 16#8 [.rxbyte 0x11#8, .hwrWm 16#8 0x99#8] (st .rx (some 16#8) .ack) 0#8 = 0x99#8 :=
  ⟨⟨_, rfl⟩, by decide, ⟨_, rfl⟩, by decide⟩

theorem witness_ErrorClassesAreResolvedLocally :
    unexpectedEvent .other (st .rx none .ack) = true ∧ unexpectedEvent (.rxbyte 9#8) (st .tx (some 5#8) .ack) = true ∧
    unexpectedEvent .txreq (st .idle none .ack) = true ∧
    bufferBoundary (.rxbyte 2#8) (st .rx (some 254#8) .ack) = true ∧ bufferBoundary .txreq (st .tx (some 254#8) .ack) = true ∧
    staleOffset .txreq (st .tx none .ack) = true := by decide

theorem witness_NothingIsRejectedUnderTheContract :
    busOrderFrom (st .rx (some 254#8) .ack).ph [.rxbyte 1#8, .other, .addrR, .txreq] = true ∧
    noDataWhileNack [.rxbyte 1#8, .other, .addrR, .txreq] (st .rx (some 254#8) .ack) = true := by decide

theorem witness_NoStaleCursorWhenEndsRaiseOther :
    (st .idle none .ack).ph = .idle ∧ (st .idle none .ack).cursor = none ∧
    endRaisesOther ([.addrW, .rxbyte 254#8, .rxbyte 1#8, .other] ++ [.addrR]) = true ∧
    ∃ t, runTrace ([.addrW, .rxbyte 254#8, .rxbyte 1#8, .other] ++ [.addrR]) (st .idle none .ack) = .next t :=
  ⟨by decide, by decide, by decide, ⟨_, rfl⟩⟩

theorem witness_OffsetSurvivesWithoutOtherAcrossRestart :
    (∀ x ∈ [Instr.hwrRm 5#8 1#8], x = .other ∨ isEvent x = false) ∧
    noOtherAcrossRestart (pseudoSetoff 255#8 ++ [.hwrRm 5#8 1#8] ++ [.addrR]) = true ∧
    ∃ t, runTrace (pseudoSetoff 255#8 ++ [.hwrRm 5#8 1#8] ++ [.addrR]) (st .tx (some 255#8) .nack) = .next t :=
  ⟨by decide, by decide, ⟨_, rfl⟩⟩

theorem witness_FourStateNamesMove :
    (∃ t, exec .addrW (st .tx (some 255#8) .nack) = .next t) ∧ (∃ t, exec .addrR (st .rx (some 255#8) .nack) = .next t) ∧
    (∃ t, exec .other (st .rx none .ack) = .next t) ∧
    (∃ t, exec (.rxbyte 1#8) (st .rx (some 255#8) .nack) = .next t ∧
      rejected (.rxbyte 1#8) (st .rx (some 255#8) .nack) = true) ∧
    (∃ t, exec (.rxbyte 1#8) (st .rx (some 254#8) .ack) = .next t ∧
      accepted (.rxbyte 1#8) (st .rx (some 254#8) .ack) = true) ∧
    (∃ t, exec .txreq (st .tx none .ack) = .next t ∧ accepted .txreq (st .tx none .ack) = true) ∧
    ∃ t, exec (.hrdRm 255#8) (st .rx none .ack) = .next t ∧ isEvent (.hrdRm 255#8) = false :=
  ⟨⟨_, rfl⟩, ⟨_, rfl⟩, ⟨_, rfl⟩, ⟨_, rfl, by decide⟩, ⟨_, rfl, by decide⟩, ⟨_, rfl, by decide⟩, ⟨_, rfl, by decide⟩⟩

theorem witness_BusControllerReadsAckAndTxd :
    (st .tx (some 254#8) .ack).ph = .tx ∧ (st .tx (some 254#8) .ack).ackarm = .ack ∧
    254#8 = (if (st .tx (some 254#8) .ack).cv then (st .tx (some 254#8) .ack).ca else 0#8) ∧
    (∀ x ∈ [Instr.hwrRm 254#8 0#8], isEvent x = false) ∧
    ∃ t, runTrace [.hwrRm 254#8 0#8] (st .tx (some 255#8) .nack) = .next t :=
  ⟨by decide, by decide, by decide, by decide, ⟨_, rfl⟩⟩

theorem witness_SuccessorLaws : (254#8 : Index).toNat ≤ 254 ∧ succ 254#8 = succ 254#8 := by decide

/-- Lengths below, at and above the limit of base 254, and below it for base 255. -/
theorem witness_SequentialWrite :
    ([] : List Byte).length < acceptLimit 254#8 ∧ [1#8].length = acceptLimit 254#8 ∧
    acceptLimit 254#8 < [1#8, 2#8].length ∧ [1#8, 2#8].length < acceptLimit 255#8 ∧ acceptLimit 255#8 = 256 ∧
    acceptLimit 0#8 = 255 := by decide

/-- Host reads, and host writes to WM and to RM elsewhere, between the requests, whose number is below, at and above the
limit of the base. -/
theorem witness_SequentialRead :
    (253#8 : Byte) = (st .tx (some 253#8) .nack).cursor.getD 0#8 ∧ (0#8 : Byte) = (st .tx none .ack).cursor.getD 0#8 ∧
    (∀ x ∈ [Instr.txreq, .hrdRm 253#8, .hwrRm 255#8 1#8, .hwrWm 253#8 1#8, .txreq, .txreq],
      x = .txreq ∨ isEvent x = false) ∧
    [Instr.txreq, .hrdRm 253#8, .hwrRm 255#8 1#8, .hwrWm 253#8 1#8, .txreq, .txreq].count .txreq = 3 ∧
    (∀ k d, k < 3 → k < acceptLimit 253#8 →
      .hwrRm (offsetAt 253#8 k) d ∉ [Instr.txreq, .hrdRm 253#8, .hwrRm 255#8 1#8, .hwrWm 253#8 1#8, .txreq, .txreq]) ∧
    1 < acceptLimit 253#8 ∧ 2 = acceptLimit 253#8 ∧ acceptLimit 253#8 < 3 := by
  refine ⟨by decide, by decide, by decide, by decide, fun k d _ hk => ?_, by decide, by decide, by decide⟩
  obtain rfl | rfl : k = 0 ∨ k = 1 := by
    have : acceptLimit 253#8 = 2 := by decide
    omega
  all_goals simp [offsetAt]

theorem witness_ReadContinuesWhereTheLastTransferStopped :
    [1#8].length < acceptLimit 253#8 ∧ (st .tx (some 253#8) .ack).cursor = some 253#8 ∧ 1 < acceptLimit 253#8 ∧
    (st .tx (some 255#8) .nack).cursor = some 255#8 ∧ 0 < acceptLimit 255#8 := by decide

theorem witness_TerminalIndexEndsTheTransfer :
    dataIndex? (.rxbyte 1#8) (st .rx (some 254#8) .ack) = some 254#8 ∧
    dataIndex? .txreq (st .tx (some 254#8) .ack) = some 254#8 ∧ isData (.rxbyte 2#8) = true ∧ isData .txreq = true := by
  decide

theorem witness_IndexTwoFiftyFiveWraps :
    (∃ t, exec (.rxbyte 255#8) (st .rx none .ack) = .next t ∧ t.cursor = some 255#8 ∧ t.ackarm = .ack) ∧
    (∃ t, exec .addrR (st .rx (some 255#8) .nack) = .next t ∧ t.cursor = some 255#8 ∧ t.ackarm = .ack) ∧
    (∃ t, exec (.hrdWm 16#8) (st .rx (some 255#8) .ack) = .next t ∧ t.cursor = some 255#8 ∧ t.ackarm = .ack) ∧
    ((st .rx (some 255#8) .ack).cursor = some 255#8 ∧ (st .rx (some 255#8) .ack).ph = .rx) ∧
    ((st .tx (some 255#8) .ack).cursor = some 255#8 ∧ (st .tx (some 255#8) .ack).ph = .tx) :=
  ⟨⟨_, rfl, by decide⟩, ⟨_, rfl, by decide⟩, ⟨_, rfl, by decide⟩, by decide, by decide⟩

end Sys2Proof.Tests
end

section
/-! PROOF. How words become steps (00_scope.md R14): a step, and a run of any length, over the words presented is the
run of the instructions they decode to. -/

namespace Sys2Proof.Machine

/-! ### Every instruction answers a next state -/

/-- The block has no fault and no refusal (R114). -/
theorem exec_eq_next (i : Instr) (s : State) : ∃ t, exec i s = .next t := by
  cases i with
  | rxbyte v =>
    cases hf : fitsRx s with
    | false => exact ⟨_, execRxbyte_rejected v s hf⟩
    | true =>
      cases hc : s.cursor with
      | none => exact ⟨_, execRxbyte_offset v s hf hc⟩
      | some idx => exact ⟨_, execRxbyte_data v s idx hf hc⟩
  | txreq =>
    cases hf : fitsTx s with
    | false => exact ⟨_, execTxreq_rejected s hf⟩
    | true => exact ⟨_, execTxreq_accepted s hf⟩
  | _ => exact ⟨_, rfl⟩

/-- Running an instruction commutes with replacing the words still to come. -/
theorem exec_setTrace (i : Instr) (s t : State) (l : List PortWord) (h : exec i s = .next t) :
    exec i (s.setTrace l) = .next (t.setTrace l) :=
  stepCase_exec i _ _ (stepCase_setTrace i s t l (exec_stepCase i s t h))

/-! ### Words presented as rows of the opcode table -/

/-- What a number means, and what presenting it does, when it is a word of its boundary. -/
theorem tableWord_of_ok (nbits w : Nat) (p : PortWord) (h : readPort (portOfWidth nbits) w = .ok p) :
    decodeTableWord nbits w = some (decode p) ∧ ∀ s : State, s.withFetchWord nbits w = present p s := by
  simp [decodeTableWord, decodeNumber, State.withFetchWord, presentTableWord, h, Except.map, Except.toOption]

/-- A number that is no word of its boundary has no meaning and presents nothing (log entry 6). -/
theorem tableWord_of_error (nbits w : Nat) (e : DecodeError) (h : readPort (portOfWidth nbits) w = .error e) :
    decodeTableWord nbits w = none ∧ ∀ s : State, s.withFetchWord nbits w = s := by
  simp [decodeTableWord, decodeNumber, State.withFetchWord, presentTableWord, h, Except.map, Except.toOption]

/-- A step with a word presented runs the word's instruction on the state before it was presented. -/
theorem step_present (w : PortWord) (s : State) : step (present w s) = exec (decode w) s :=
  step_of_word (present w s) w s.trace (nextWord_present w s)

theorem step_withFetchWord (s : State) (nbits w : Nat) (i : Instr) (h : decodeTableWord nbits w = some i) :
    step (s.withFetchWord nbits w) = exec i s := by
  cases hp : readPort (portOfWidth nbits) w with
  | ok p =>
    obtain ⟨hdec, hfetch⟩ := tableWord_of_ok nbits w p hp
    obtain rfl : decode p = i := Option.some.inj (hdec.symm.trans h)
    rw [hfetch, step_present]
  | error e =>
    obtain ⟨hdec, -⟩ := tableWord_of_error nbits w e hp
    simp [hdec] at h

theorem withFetchWord_of_none (s : State) (nbits w : Nat) (h : decodeTableWord nbits w = none) :
    s.withFetchWord nbits w = s := by
  cases hp : readPort (portOfWidth nbits) w with
  | ok p =>
    obtain ⟨hdec, -⟩ := tableWord_of_ok nbits w p hp
    simp [hdec] at h
  | error e => exact (tableWord_of_error nbits w e hp).2 s

/-! ### A run over words -/

/-- The first of the words to come is consumed by one step, which leaves the others in place. -/
theorem step_setTrace_cons (w : PortWord) (ws : List PortWord) (s t : State) (h : exec (decode w) s = .next t) :
    step (s.setTrace (w :: ws)) = .next (t.setTrace ws) :=
  (step_of_word (s.setTrace (w :: ws)) w ws rfl).trans (exec_setTrace (decode w) s t ws h)

/-- Each step of the run takes one word; the words not yet taken do not matter to it, so the run of the instructions
may start with none to come. -/
theorem core_run_setTrace (ws : List PortWord) (s : State) :
    Host.Core.run Sys2Proof.core ws.length (s.setTrace ws) = runTrace (ws.map decode) (s.setTrace []) := by
  induction ws generalizing s with
  | nil => rfl
  | cons w ws ih =>
    obtain ⟨t, ht⟩ := exec_eq_next (decode w) s
    have hfirst : step (s.setTrace (w :: ws)) = .next (t.setTrace ws) := step_setTrace_cons w ws s t ht
    have hexec : exec (decode w) (s.setTrace []) = .next (t.setTrace []) := exec_setTrace (decode w) s t [] ht
    rw [List.length_cons, core_run_succ _ _ _ hfirst, ih t, List.map_cons, runTrace_cons _ _ _ _ hexec]

/-! ### The statements of the scope -/

/-- Settles O7, by induction on the words presented. -/
theorem runOverWordsIsRunOfTheirInstructions : Obligations.RunOverWordsIsRunOfTheirInstructions :=
  core_run_setTrace

/-- Settles O6, clause by clause: a word of the trace, none, a row of the opcode table, a number that is no word. -/
theorem stepRunsTheDecodedInstruction : Obligations.StepRunsTheDecodedInstruction := by
  refine ⟨fun s w rest htr => ?_, fun s htr => ?_, step_withFetchWord, withFetchWord_of_none⟩
  · exact step_of_word s w rest (by simp [nextWord_eq, htr])
  · exact step_of_no_word s (by simp [nextWord_eq, htr])

end Sys2Proof.Machine
end

section
/-! PROOF. The state and how it moves (10_state.md): reset, the invariants I1 to I4, the two one-bit conditions, the
four state names, and the separation of the two arrays. -/

namespace Sys2Proof.Machine

/-! ### What the shared operations leave in the registers -/

@[simp] theorem advanceCursor_fields (x : Index) (s : State) :
    (advanceCursor x s).wm = s.wm ∧ (advanceCursor x s).rm = s.rm ∧ (advanceCursor x s).cv = true ∧
      (advanceCursor x s).ca = succ x ∧ (advanceCursor x s).ph = s.ph :=
  ⟨rfl, rfl, rfl, rfl, rfl⟩

@[simp] theorem otherPath_fields (s : State) :
    (otherPath s).wm = s.wm ∧ (otherPath s).rm = s.rm ∧ (otherPath s).cv = false ∧ (otherPath s).ca = 0#8 ∧
      (otherPath s).ph = .idle ∧ (otherPath s).ackarm = .ack :=
  ⟨rfl, rfl, rfl, rfl, rfl, rfl⟩

@[simp] theorem readdress_fields (p : Phase) (s : State) :
    (readdress p s).wm = s.wm ∧ (readdress p s).rm = s.rm ∧ (readdress p s).cv = s.cv ∧ (readdress p s).ca = s.ca ∧
      (readdress p s).ph = p ∧ (readdress p s).ackarm = .ack :=
  ⟨rfl, rfl, rfl, rfl, rfl, rfl⟩

@[simp] theorem hostRead_registers (S : ArrayId) (i : Index) (s : State) :
    (hostRead S i s).cv = s.cv ∧ (hostRead S i s).ph = s.ph ∧ (hostRead S i s).ackarm = s.ackarm :=
  ⟨rfl, rfl, rfl⟩

@[simp] theorem hostWrite_registers (S : ArrayId) (i : Index) (d : Byte) (s : State) :
    (hostWrite S i d s).cv = s.cv ∧ (hostWrite S i d s).ph = s.ph ∧ (hostWrite S i d s).ackarm = s.ackarm := by
  simp [hostWrite]

/-! ### The views of an instruction, one equation a case -/

/-- The five events and the four host operations (R55). -/
@[simp] theorem isEvent_cases :
    isEvent .addrW = true ∧ (∀ v, isEvent (.rxbyte v) = true) ∧ isEvent .addrR = true ∧ isEvent .txreq = true ∧
      isEvent .other = true ∧ (∀ i, isEvent (.hrdWm i) = false) ∧ (∀ i d, isEvent (.hwrWm i d) = false) ∧
      (∀ i, isEvent (.hrdRm i) = false) ∧ ∀ i d, isEvent (.hwrRm i d) = false :=
  ⟨rfl, fun _ => rfl, rfl, rfl, rfl, fun _ => rfl, fun _ _ => rfl, fun _ => rfl, fun _ _ => rfl⟩

/-- A data event is accepted when it fits (R88); no other instruction is called so. -/
@[simp] theorem accepted_cases (s : State) :
    accepted .addrW s = false ∧ (∀ v, accepted (.rxbyte v) s = fitsRx s) ∧ accepted .addrR s = false ∧
      accepted .txreq s = fitsTx s ∧ accepted .other s = false ∧ (∀ i, accepted (.hrdWm i) s = false) ∧
      (∀ i d, accepted (.hwrWm i d) s = false) ∧ (∀ i, accepted (.hrdRm i) s = false) ∧
      ∀ i d, accepted (.hwrRm i d) s = false :=
  ⟨rfl, fun _ => rfl, rfl, rfl, rfl, fun _ => rfl, fun _ _ => rfl, fun _ => rfl, fun _ _ => rfl⟩

/-- A data event is rejected when it does not fit (R88); no other instruction is. -/
@[simp] theorem rejected_cases (s : State) :
    rejected .addrW s = false ∧ (∀ v, rejected (.rxbyte v) s = !fitsRx s) ∧ rejected .addrR s = false ∧
      rejected .txreq s = !fitsTx s ∧ rejected .other s = false ∧ (∀ i, rejected (.hrdWm i) s = false) ∧
      (∀ i d, rejected (.hwrWm i d) s = false) ∧ (∀ i, rejected (.hrdRm i) s = false) ∧
      ∀ i d, rejected (.hwrRm i d) s = false :=
  ⟨rfl, fun _ => rfl, rfl, rfl, rfl, fun _ => rfl, fun _ _ => rfl, fun _ => rfl, fun _ _ => rfl⟩

/-- A data event touches an array when it is accepted, an `RXBYTE` in its data case only (R102); nothing else has a data
index. -/
@[simp] theorem dataIndex?_cases (s : State) :
    dataIndex? .addrW s = none ∧ (∀ v, dataIndex? (.rxbyte v) s = rxStoreIndex? s) ∧ dataIndex? .addrR s = none ∧
      dataIndex? .txreq s = (if fitsTx s then some (txIndex s) else none) ∧ dataIndex? .other s = none ∧
      (∀ i, dataIndex? (.hrdWm i) s = none) ∧ (∀ i d, dataIndex? (.hwrWm i d) s = none) ∧
      (∀ i, dataIndex? (.hrdRm i) s = none) ∧ ∀ i d, dataIndex? (.hwrRm i d) s = none :=
  ⟨rfl, fun _ => rfl, rfl, rfl, rfl, fun _ => rfl, fun _ _ => rfl, fun _ => rfl, fun _ _ => rfl⟩

/-- An `RXBYTE` stores exactly in its data case, at the cursor (R75, R89). -/
theorem rxStoreIndex?_eq_some_iff (s : State) (k : Index) :
    rxStoreIndex? s = some k ↔ fitsRx s = true ∧ s.cursor = some k := by
  simp [rxStoreIndex?]

/-! ### Reset -/

/-- An entry nothing has written since reset reads as its reset byte (R133). -/
theorem memRead_unwritten (S : ArrayId) (i : Index) (s : State) (h : (s.array S).get? i.toNat = none) :
    memRead S i s = unwrittenByte S i := by
  simp [memRead, h]

theorem array_reset (S : ArrayId) : State.reset.array S = [] := by
  cases S <;> rfl

/-- Settles O20: the registers by their reset values, the arrays because nothing is written yet. -/
theorem resetLeavesTheIdleStateAndMemInit : Obligations.ResetLeavesTheIdleStateAndMemInit := by
  refine ⟨rfl, rfl, rfl, rfl, rfl, fun S i => ?_, fun S i => rfl⟩
  exact memRead_unwritten S i State.reset (by rw [array_reset, Memory.get?])

/-- Settles O26: no entry is listed, the cursor is unset with `CA = 0`, and `ACK` is armed. -/
theorem resetMeetsTheInvariants : Obligations.ResetMeetsTheInvariants :=
  ⟨rfl, rfl, fun _ => rfl, fun _ => rfl, nofun⟩

/-! ### The invariants -/

/-- I1 to I4 speak of neither of the model's own fields. -/
theorem Invariants.setTrace {s : State} (h : Invariants s) (l : List PortWord) : Invariants (s.setTrace l) :=
  ⟨h.wmWf, h.rmWf, h.unsetZero, h.idleUnset, h.nackTerminal⟩

theorem Invariants.setHostResult {s : State} (h : Invariants s) (r : Option Byte) :
    Invariants (s.setHostResult r) :=
  ⟨h.wmWf, h.rmWf, h.unsetZero, h.idleUnset, h.nackTerminal⟩

theorem Invariants.setTxd {s : State} (h : Invariants s) (v : Byte) : Invariants (s.setTxd v) :=
  ⟨h.wmWf, h.rmWf, h.unsetZero, h.idleUnset, h.nackTerminal⟩

/-- A write keeps the array it writes in canonical form and reaches nothing else. -/
theorem Invariants.memWrite {s : State} (h : Invariants s) (S : ArrayId) (i : Index) (v : Byte) :
    Invariants (memWrite S i v s) := by
  cases S with
  | wm => exact ⟨Memory.put_wf s.wm i v h.wmWf, h.rmWf, h.unsetZero, h.idleUnset, h.nackTerminal⟩
  | rm => exact ⟨h.wmWf, Memory.put_wf s.rm i v h.rmWf, h.unsetZero, h.idleUnset, h.nackTerminal⟩

/-- With `ACK` armed and the arrays as they were, only I2 and I3 are left to show. -/
theorem Invariants.of_ack {s t : State} (h : Invariants s) (hw : t.wm = s.wm) (hr : t.rm = s.rm)
    (hack : t.ackarm = .ack) (hzero : t.cv = false → t.ca = 0#8) (hidle : t.ph = .idle → t.cv = false) :
    Invariants t where
  wmWf := hw ▸ h.wmWf
  rmWf := hr ▸ h.rmWf
  unsetZero := hzero
  idleUnset := hidle
  nackTerminal hnack := by simp [hack] at hnack

theorem Invariants.otherPath {s : State} (h : Invariants s) : Invariants (otherPath s) :=
  h.of_ack rfl rfl rfl (fun _ => rfl) (fun _ => rfl)

/-- Outside `IDLE` the cursor may be set to any byte, so long as `NACK` is armed at the terminal index only. -/
theorem Invariants.setCursor_setAck {s : State} (h : Invariants s) (c : Byte) (d : AckDec) (hph : s.ph ≠ .idle)
    (hd : d = .nack → c = Config.terminal) : Invariants ((s.setCursor (some c)).setAck d) where
  wmWf := h.wmWf
  rmWf := h.rmWf
  unsetZero hcv := by simp at hcv
  idleUnset hidle := absurd hidle hph
  nackTerminal hnack := ⟨hph, rfl, hd hnack⟩

/-- The end of an accepted data event: the cursor advances, and `NACK` is armed when it reaches the terminal index. -/
theorem Invariants.advanceCursor {s : State} (h : Invariants s) (idx : Index) (hph : s.ph ≠ .idle) :
    Invariants ((advanceCursor idx s).setAck (ackFor (succ idx))) :=
  h.setCursor_setAck (succ idx) (ackFor (succ idx)) hph (ackFor_eq_nack_iff (succ idx)).mp

theorem ph_ne_idle_of_fitsRx {s : State} (hf : fitsRx s = true) : s.ph ≠ .idle := by
  simp [((fitsRx_iff s).mp hf).1]

theorem ph_ne_idle_of_fitsTx {s : State} (hf : fitsTx s = true) : s.ph ≠ .idle := by
  simp [((fitsTx_iff s).mp hf).1]

/-- Every instruction keeps the invariants. -/
theorem Invariants.stepCase {i : Instr} {s t : State} (h : Invariants s) (hcase : StepCase s i t) :
    Invariants t := by
  cases hcase with
  | addrW => exact h.of_ack rfl rfl rfl (fun _ => rfl) nofun
  | rxOffset v hf hc => exact h.setCursor_setAck v .ack (ph_ne_idle_of_fitsRx hf) nofun
  | rxData v idx hf hc => exact (h.memWrite .wm idx v).advanceCursor idx (ph_ne_idle_of_fitsRx hf)
  | rxRejected v hf => exact h.otherPath
  | addrR => exact h.of_ack rfl rfl rfl h.unsetZero nofun
  | txAccepted hf => exact (h.setTxd _).advanceCursor _ (ph_ne_idle_of_fitsTx hf)
  | txRejected hf => exact h.otherPath
  | other => exact h.otherPath
  | hrdWm i => exact h.setHostResult _
  | hwrWm i d => exact (h.memWrite .wm i d).setHostResult none
  | hrdRm i => exact h.setHostResult _
  | hwrRm i d => exact (h.memWrite .rm i d).setHostResult none

/-- A step waits, or takes the next word and does one of the cases of the instruction it decodes to. -/
theorem step_cases {s t : State} (h : step s = .next t) :
    t = s ∨ ∃ w rest, s.trace = w :: rest ∧ StepCase (s.setTrace rest) (decode w) t := by
  cases htr : s.trace with
  | nil =>
    rw [step_of_no_word s (by simp [nextWord_eq, htr])] at h
    cases h
    exact .inl rfl
  | cons w rest =>
    rw [step_of_word s w rest (by simp [nextWord_eq, htr])] at h
    exact .inr ⟨w, rest, rfl, exec_stepCase _ _ _ h⟩

/-- Settles O27: a step waits, or runs one instruction, and every instruction keeps the invariants. -/
theorem everyStepKeepsTheInvariants : Obligations.EveryStepKeepsTheInvariants := by
  intro s t hinv hstep
  obtain rfl | ⟨w, rest, -, hcase⟩ := step_cases hstep
  · exact hinv
  · exact (hinv.setTrace rest).stepCase hcase

/-! ### The two one-bit conditions (R28) -/

/-- What sets `CV`: an accepted data event; an `ADDR_R` and a host operation leave it; all else clears it. -/
theorem StepCase.cv_iff {i : Instr} {s t : State} (h : StepCase s i t) :
    t.cv = true ↔ accepted i s = true ∨ (i = .addrR ∨ isEvent i = false) ∧ s.cv = true := by
  cases h with
  | rxOffset v hf hc | rxData v idx hf hc | rxRejected v hf | txAccepted hf | txRejected hf => simp [hf]
  | _ => simp

/-- What arms `NACK`: a data event that moves the cursor to the terminal index; a host operation leaves it; all else
arms `ACK`. -/
theorem StepCase.ackarm_iff {i : Instr} {s t : State} (h : StepCase s i t) :
    t.ackarm = .nack ↔
      (∃ x, dataIndex? i s = some x ∧ succ x = 255#8) ∨ isEvent i = false ∧ s.ackarm = .nack := by
  have hterm (x : Index) : ackFor (succ x) = .nack ↔ succ x = 255#8 := ackFor_eq_nack_iff (succ x)
  cases h with
  | rxOffset v hf hc | rxData v idx hf hc => simp [rxStoreIndex?_eq_some_iff, hf, hc, hterm]
  | rxRejected v hf => simp [rxStoreIndex?_eq_some_iff, hf]
  | txAccepted hf => simp [hf, hterm]
  | txRejected hf => simp [hf]
  | _ => simp

/-- Settles O31: the two conditions after any case of a step, and their reset values. -/
theorem cursorValidAndAckWrittenOnlyAsListed : Obligations.CursorValidAndAckWrittenOnlyAsListed := by
  refine ⟨fun i s t h => ?_, rfl, rfl⟩
  have hcase := exec_stepCase i s t h
  exact ⟨hcase.cv_iff, hcase.ackarm_iff⟩

/-! ### The four state names (R23) -/

/-- The name depends on `PH` and `CV` alone. -/
theorem engineState_congr {s t : State} (hph : t.ph = s.ph) (hcv : t.cv = s.cv) : t.engineState = s.engineState := by
  simp only [State.engineState, hph, hcv]

@[simp] theorem engineState_otherPath (s : State) : (otherPath s).engineState = .idle := rfl

theorem engineState_of_rx {s : State} (h : s.ph = .rx) :
    s.engineState = if s.cv then .writing else .awaitingOffset := by
  cases hc : s.cv <;> simp [State.engineState, h, hc]

theorem engineState_of_tx {s : State} (h : s.ph = .tx) : s.engineState = .reading := by
  simp [State.engineState, h]

/-- Settles O44, by the cases of a step. -/
theorem fourStateNamesMove : Obligations.FourStateNamesMove := by
  intro i s t h
  cases exec_stepCase i s t h with
  | addrW => simp [engineState_of_rx]
  | rxOffset v hf hc | rxData v idx hf hc =>
    have hph : s.ph = .rx := ((fitsRx_iff s).mp hf).1
    simp [hf, engineState_of_rx, hph]
  | rxRejected v hf => simp [hf]
  | addrR => simp [engineState_of_tx]
  | txAccepted hf =>
    have hph : s.ph = .tx := ((fitsTx_iff s).mp hf).1
    simp [hf, engineState_of_tx, hph]
  | txRejected hf => simp [hf]
  | other => simp
  | hrdWm i | hwrWm i d | hrdRm i | hwrRm i d => simp [engineState_congr (s := s)]

/-! ### Runs: what every step keeps, and two runs side by side -/

/-- A view of the state that no instruction of a run changes is not changed by the run. -/
theorem runTrace_keeps {α : Type} (f : State → α) (is : List Instr) (s t : State)
    (hstep : ∀ i ∈ is, ∀ u w, exec i u = .next w → f w = f u) (h : runTrace is s = .next t) : f t = f s := by
  induction is generalizing s with
  | nil => cases h; rfl
  | cons i is ih =>
    obtain ⟨u, hu, hr⟩ := runTrace_cons_inv i is s t h
    exact (ih u (fun j hj => hstep j (List.mem_cons_of_mem i hj)) hr).trans (hstep i List.mem_cons_self s u hu)

/-- A relation between two states that every instruction of a run carries over to the next states is carried over by
the run. -/
theorem runTrace_simulation (R : State → State → Prop) (is : List Instr) (s t u : State)
    (hstep : ∀ i ∈ is, ∀ s t u, R s u → exec i s = .next t → ∃ u', exec i u = .next u' ∧ R t u')
    (hR : R s u) (h : runTrace is s = .next t) : ∃ u', runTrace is u = .next u' ∧ R t u' := by
  induction is generalizing s u with
  | nil => cases h; exact ⟨u, rfl, hR⟩
  | cons i is ih =>
    obtain ⟨s', hs', hr⟩ := runTrace_cons_inv i is s t h
    obtain ⟨u', hu', hR'⟩ := hstep i List.mem_cons_self s s' u hR hs'
    rw [runTrace_cons i is u u' hu']
    exact ih s' u' (fun j hj => hstep j (List.mem_cons_of_mem i hj)) hR' hr

/-! ### The arrays share no storage (R20) -/

/-- No event writes `RM` (R19). -/
theorem StepCase.rm_of_event {i : Instr} {s t : State} (h : StepCase s i t) (hi : isEvent i = true) :
    t.rm = s.rm := by
  cases h with
  | hrdWm i | hwrWm i d | hrdRm i | hwrRm i d => simp at hi
  | _ => simp

/-- Settles O33: the store of the data case, the supply of an accepted `TXREQ`, and `RM` over a run of events. -/
theorem arraysShareNoStorage : Obligations.ArraysShareNoStorage := by
  refine ⟨fun s v k hk => ?_, fun s m hf => ?_, fun is s t hev h k => ?_⟩
  · obtain ⟨hf, hc⟩ := (rxStoreIndex?_eq_some_iff s k).mp hk
    refine ⟨_, execRxbyte_data v s k hf hc, ?_, fun x => ?_⟩
    · simp [memRead_memWrite_self]
    · simp [memRead_memWrite]
  · exact ⟨_, _, execTxreq_accepted s hf, rfl, execTxreq_accepted { s with wm := m } hf, rfl⟩
  · have hrm : t.rm = s.rm := runTrace_keeps State.rm is s t
      (fun i hi u w hst => (exec_stepCase i u w hst).rm_of_event (hev i hi)) h
    exact memRead_congr .rm k t s hrm

/-! ### What no step reads influences nothing (R18, R19, R33 I7) -/

/-- The instructions that read an array: the host's reads of it, and `TXREQ` for `RM` (R18, R19). -/
def readsArray : ArrayId → Instr → Bool
  | .wm, .hrdWm _ | .rm, .hrdRm _ | .rm, .txreq => true
  | _, _ => false

/-- Two states alike in all but the contents of one array. -/
def alikeBut (S : ArrayId) (s u : State) : Prop := ∃ m, u = s.setArray S m

/-- With an array replaced that the instruction does not read, it does the same, whatever it leaves in that array. -/
theorem StepCase.setArray {S : ArrayId} {i : Instr} {s t : State} (h : StepCase s i t) (m : Memory)
    (hread : readsArray S i = false) : ∃ m', StepCase (s.setArray S m) i (t.setArray S m') := by
  cases h with
  | addrW => cases S <;> exact ⟨m, .addrW⟩
  | rxOffset v hf hc => cases S <;> exact ⟨m, .rxOffset v hf hc⟩
  | rxData v idx hf hc =>
    cases S with
    | wm => exact ⟨m.put idx.toNat v, .rxData v idx hf hc⟩
    | rm => exact ⟨m, .rxData v idx hf hc⟩
  | rxRejected v hf => cases S <;> exact ⟨m, .rxRejected v hf⟩
  | addrR => cases S <;> exact ⟨m, .addrR⟩
  | txAccepted hf =>
    cases S with
    | wm => exact ⟨m, .txAccepted hf⟩
    | rm => cases hread
  | txRejected hf => cases S <;> exact ⟨m, .txRejected hf⟩
  | other => cases S <;> exact ⟨m, .other⟩
  | hrdWm i =>
    cases S with
    | wm => cases hread
    | rm => exact ⟨m, .hrdWm i⟩
  | hwrWm i d =>
    cases S with
    | wm => exact ⟨m.put i.toNat d, .hwrWm i d⟩
    | rm => exact ⟨m, .hwrWm i d⟩
  | hrdRm i =>
    cases S with
    | wm => exact ⟨m, .hrdRm i⟩
    | rm => cases hread
  | hwrRm i d =>
    cases S with
    | wm => exact ⟨m, .hwrRm i d⟩
    | rm => exact ⟨m.put i.toNat d, .hwrRm i d⟩

/-- A run that does not read an array goes the same way with other contents in it. -/
theorem runTrace_alikeBut (S : ArrayId) (is : List Instr) (s t : State) (m : Memory)
    (hread : ∀ i ∈ is, readsArray S i = false) (h : runTrace is s = .next t) :
    ∃ u, runTrace is (s.setArray S m) = .next u ∧ alikeBut S t u := by
  refine runTrace_simulation (alikeBut S) is s t _ (fun i hi s t u hR hst => ?_) ⟨m, rfl⟩ h
  obtain ⟨m, rfl⟩ := hR
  obtain ⟨m', hstep⟩ := (exec_stepCase i s t hst).setArray m (hread i hi)
  exact ⟨_, stepCase_exec i _ _ hstep, m', rfl⟩

/-- `WM` is read by the host's reads of it alone (R18). -/
theorem readsArray_wm_eq_false_iff (i : Instr) : readsArray .wm i = false ↔ ∀ k, i ≠ .hrdWm k := by
  cases i <;> simp [readsArray]

/-- `RM` is read by `TXREQ` and by the host's reads of it (R19). -/
theorem readsArray_rm_eq_false_iff (i : Instr) :
    readsArray .rm i = false ↔ i ≠ .txreq ∧ ∀ k, i ≠ .hrdRm k := by
  cases i <;> simp [readsArray]

/-- Settles O34: neither run reads the array concerned, so its contents do not matter to the run. -/
theorem unreadArraysDoNotInfluenceTheRun : Obligations.UnreadArraysDoNotInfluenceTheRun := by
  refine ⟨fun is s t m hread h => ?_, fun is s t m hread h => ?_⟩
  · obtain ⟨u, hu, m', rfl⟩ := runTrace_alikeBut .wm is s t m
      (fun i hi => (readsArray_wm_eq_false_iff i).mpr (hread i hi)) h
    exact ⟨_, hu, rfl⟩
  · obtain ⟨u, hu, m', rfl⟩ := runTrace_alikeBut .rm is s t m
      (fun i hi => (readsArray_rm_eq_false_iff i).mpr (hread i hi)) h
    exact ⟨_, hu, rfl⟩

end Sys2Proof.Machine
end

section
/-! PROOF. The two arrays as agents see them (20_memory.md): what the host reaches, which accesses repeat, what an entry
reads as after any run, and the contract under which no data event is rejected. -/

namespace Sys2Proof.Machine

/-! ### What the host reaches (R40) -/

@[simp] theorem memRead_hostRead (S T : ArrayId) (i k : Index) (s : State) :
    memRead T k (hostRead S i s) = memRead T k s := rfl

/-- A host write reaches one entry of one array. -/
theorem memRead_hostWrite (S T : ArrayId) (i k : Index) (d : Byte) (s : State) :
    memRead T k (hostWrite S i d s) = if T = S ∧ k = i then d else memRead T k s :=
  memRead_memWrite S T i k d s

/-- The registers of the block, the items of R17 that are no array. -/
def State.registers (s : State) : Bool × Byte × Phase × AckDec × Byte := (s.cv, s.ca, s.ph, s.ackarm, s.txd)

theorem registers_eq_iff (s t : State) :
    t.registers = s.registers ↔ t.cv = s.cv ∧ t.ca = s.ca ∧ t.ph = s.ph ∧ t.ackarm = s.ackarm ∧ t.txd = s.txd := by
  simp [State.registers]

/-- The cursor depends on `CV` and `CA` alone. -/
theorem cursor_congr {s t : State} (hcv : t.cv = s.cv) (hca : t.ca = s.ca) : t.cursor = s.cursor := by
  simp only [State.cursor, hcv, hca]

/-- A host operation writes no register (R40, R96). -/
theorem registers_of_host (i : Instr) (s t : State) (hi : isEvent i = false) (h : exec i s = .next t) :
    t.registers = s.registers := by
  obtain ⟨t', u', ht', -, hframe, -⟩ := exec_host_congr i s s hi rfl rfl
  obtain rfl : t = t' := by simpa using h.symm.trans ht'
  rw [hframe]
  rfl

/-- Settles O35: the four operations by what they read or write, the registers over a run because no host operation
writes one. -/
theorem hostReachesTheArraysOnly : Obligations.HostReachesTheArraysOnly := by
  refine ⟨fun s i => ⟨hostRead .wm i s, rfl, rfl⟩, fun s i => ⟨hostRead .rm i s, rfl, rfl⟩,
    fun s i d => ⟨hostWrite .wm i d s, rfl, fun S k => memRead_hostWrite .wm S i k d s⟩,
    fun s i d => ⟨hostWrite .rm i d s, rfl, fun S k => memRead_hostWrite .rm S i k d s⟩, fun is s t hhost h => ?_⟩
  have hregs : t.registers = s.registers :=
    runTrace_keeps State.registers is s t (fun i hi u w => registers_of_host i u w (hhost i hi)) h
  obtain ⟨hcv, hca, hrest⟩ := (registers_eq_iff s t).mp hregs
  exact ⟨cursor_congr hcv hca, hcv, hca, hrest⟩

/-! ### Which accesses repeat (R45) -/

theorem succ_ne_self (i : Index) : succ i ≠ i := by
  simp [succ_eq_add_one]

/-- An accepted `TXREQ` leaves another cursor than it found, whether it used the cursor or, with the cursor unset, the
default index (R81, R82). -/
theorem some_succ_txIndex_ne_cursor (s : State) : some (succ (txIndex s)) ≠ s.cursor := by
  cases hc : s.cursor with
  | none => simp
  | some idx => simpa [txIndex, hc] using succ_ne_self idx

/-- An accepted data event moves the cursor (R100), and the phase is not `IDLE` after it. -/
theorem StepCase.cursor_ne_and_ph_ne_of_accepted {i : Instr} {s t : State} (h : StepCase s i t)
    (ha : accepted i s = true) : t.cursor ≠ s.cursor ∧ t.ph ≠ .idle := by
  cases h with
  | rxOffset v hf hc => simp [hc, ph_ne_idle_of_fitsRx hf]
  | rxData v idx hf hc => simp [hc, succ_ne_self, ph_ne_idle_of_fitsRx hf]
  | txAccepted hf => simp [some_succ_txIndex_ne_cursor, ph_ne_idle_of_fitsTx hf]
  | rxRejected v hf | txRejected hf => simp [hf] at ha
  | _ => simp at ha

/-- A data event that is not accepted ends in `IDLE` (R89). -/
theorem StepCase.ph_of_not_accepted {i : Instr} {s t : State} (h : StepCase s i t) (hi : isData i = true)
    (ha : accepted i s = false) : t.ph = .idle := by
  cases h with
  | rxRejected v hf | txRejected hf => simp
  | rxOffset v hf hc | rxData v idx hf hc | txAccepted hf => simp [hf] at ha
  | _ => cases hi

theorem isData_of_accepted {i : Instr} {s : State} (h : accepted i s = true) : isData i = true := by
  simp only [accepted, Bool.and_eq_true] at h
  exact h.1

/-- An accepted data event is not idempotent: the same event once more moves the cursor again or, rejected, leaves the
phase of the transaction. -/
theorem not_idempotent_of_accepted {i : Instr} {s t : State} (ha : accepted i s = true) (h : exec i s = .next t) :
    exec i t ≠ .next t := by
  intro hagain
  have hrep : StepCase t i t := exec_stepCase i t t hagain
  cases hacc : accepted i t with
  | true => exact (hrep.cursor_ne_and_ph_ne_of_accepted hacc).1 rfl
  | false =>
    have hidle : t.ph = .idle := hrep.ph_of_not_accepted (isData_of_accepted ha) hacc
    exact ((exec_stepCase i s t h).cursor_ne_and_ph_ne_of_accepted ha).2 hidle

/-- The reads, of the host and of `TXREQ`, have no side effect on the arrays. -/
theorem StepCase.arrays_of_read {i : Instr} {s t : State} (h : StepCase s i t)
    (hi : i = .txreq ∨ ∃ k, i = .hrdWm k ∨ i = .hrdRm k) : t.wm = s.wm ∧ t.rm = s.rm := by
  cases h with
  | txAccepted hf | txRejected hf => simp
  | hrdWm k | hrdRm k => exact ⟨rfl, rfl⟩
  | _ => simp at hi

/-- Writing the same byte to the same index twice leaves every entry as writing it once does. -/
theorem memRead_hostWrite_hostWrite (S T : ArrayId) (i k : Index) (d : Byte) (s : State) :
    memRead T k (hostWrite S i d (hostWrite S i d s)) = memRead T k (hostWrite S i d s) := by
  by_cases hk : T = S ∧ k = i <;> simp [memRead_hostWrite, hk]

/-- Settles O36: reads, the registers an accepted `TXREQ` writes, a write done twice, a data event done twice. -/
theorem readsKeepArraysAndWritesRepeat : Obligations.ReadsKeepArraysAndWritesRepeat := by
  refine ⟨fun i s t hi h => (exec_stepCase i s t h).arrays_of_read hi, fun s t ha h => ?_, fun x i d s hx => ?_,
    fun i s t ha h => ?_⟩
  · cases exec_stepCase .txreq s t h with
    | txAccepted hf => rfl
    | txRejected hf => simp [hf] at ha
  · obtain rfl | rfl := hx
    · exact ⟨_, _, rfl, rfl, fun S k => memRead_hostWrite_hostWrite .wm S i k d s⟩
    · exact ⟨_, _, rfl, rfl, fun S k => memRead_hostWrite_hostWrite .rm S i k d s⟩
  · obtain ⟨hcursor, -⟩ := (exec_stepCase i s t h).cursor_ne_and_ph_ne_of_accepted ha
    exact ⟨hcursor, not_idempotent_of_accepted ha h⟩

/-! ### The latest write (R48) -/

/-- What an entry of `RM` reads as after a step accounts for the step: only a host write to it counts (R95). -/
theorem StepCase.latestRmWrite_cons {i : Instr} {s t : State} (h : StepCase s i t) (k : Index) (is : List Instr) :
    latestRmWrite k (i :: is) (memRead .rm k s) = latestRmWrite k is (memRead .rm k t) := by
  cases h with
  | hwrRm x d => simp [latestRmWrite, memRead_hostWrite, eq_comm]
  | rxData v idx hf hc => simp [latestRmWrite, memRead_memWrite]
  | hwrWm x d => simp [latestRmWrite, memRead_hostWrite]
  | _ => simp [latestRmWrite]

/-- Settles O38, by induction on the run. -/
theorem readMemoryHoldsTheLatestHostWrite : Obligations.ReadMemoryHoldsTheLatestHostWrite := by
  intro is s t k h
  induction is generalizing s with
  | nil => cases h; rfl
  | cons i is ih =>
    obtain ⟨u, hu, hr⟩ := runTrace_cons_inv i is s t h
    rw [(exec_stepCase i s u hu).latestRmWrite_cons k is, ih u hr]

/-- An entry of `WM` reads after a step as the byte the step writes to it, or as before (R75, R93). -/
theorem StepCase.memRead_wm {i : Instr} {s t : State} (h : StepCase s i t) (k : Index) :
    memRead .wm k t = (wmWriteAt k i s).getD (memRead .wm k s) := by
  cases h with
  | rxData v idx hf hc =>
    by_cases hk : idx = k <;> simp [wmWriteAt, memRead_memWrite, rxStoreIndex?_eq_some_iff, hf, hc, hk, Ne.symm]
  | hwrWm x d => by_cases hk : x = k <;> simp [wmWriteAt, memRead_hostWrite, hk, Ne.symm]
  | rxOffset v hf hc => simp [wmWriteAt, rxStoreIndex?_eq_some_iff, hc]
  | rxRejected v hf => simp [wmWriteAt, rxStoreIndex?_eq_some_iff, hf]
  | hwrRm x d => simp [wmWriteAt, memRead_hostWrite]
  | _ => simp [wmWriteAt]

theorem latestWmWrite_cons (k : Index) (i : Instr) (is : List Instr) (s t : State) (b : Byte)
    (h : exec i s = .next t) : latestWmWrite k (i :: is) s b = latestWmWrite k is t ((wmWriteAt k i s).getD b) := by
  simp [latestWmWrite, h]

/-- Settles O39, by induction on the run. -/
theorem writeMemoryHoldsTheLatestWrite : Obligations.WriteMemoryHoldsTheLatestWrite := by
  intro is s t k h
  induction is generalizing s with
  | nil => cases h; rfl
  | cons i is ih =>
    obtain ⟨u, hu, hr⟩ := runTrace_cons_inv i is s t h
    rw [latestWmWrite_cons k i is s u _ hu, ← (exec_stepCase i s u hu).memRead_wm k, ih u hr]

/-! ### The contract of the bus controller (D12) -/

theorem noDataWhileNack_cons (i : Instr) (is : List Instr) (s t : State) (h : exec i s = .next t) :
    noDataWhileNack (i :: is) s = true ↔ (isData i = true → s.ackarm = .ack) ∧ noDataWhileNack is t = true := by
  cases hi : isData i <;> simp [noDataWhileNack, h, hi]

theorem noneRejected_cons (i : Instr) (is : List Instr) (s t : State) (h : exec i s = .next t) :
    noneRejected (i :: is) s = true ↔ rejected i s = false ∧ noneRejected is t = true := by
  simp [noneRejected, h]

/-- The first event of a trace in bus order fits the phase, so under armed `ACK` it is not rejected. -/
theorem not_rejected_of_busOrderFrom (i : Instr) (is : List Instr) (s : State)
    (hbus : busOrderFrom s.ph (i :: is) = true) (hack : isData i = true → s.ackarm = .ack) :
    rejected i s = false := by
  cases i with
  | rxbyte v | txreq =>
    simp only [busOrderFrom, Bool.and_eq_true, beq_iff_eq] at hbus
    simp [fitsRx_iff, fitsTx_iff, hbus.1, hack rfl]
  | _ => simp

/-- With no rejection the block's phase follows the bus: the rest of the trace is in bus order from the phase the step
leaves. -/
theorem StepCase.busOrderFrom_tail {i : Instr} {s t : State} (h : StepCase s i t) (is : List Instr)
    (hbus : busOrderFrom s.ph (i :: is) = true) (hrej : rejected i s = false) : busOrderFrom t.ph is = true := by
  cases h with
  | rxRejected v hf | txRejected hf => simp [hf] at hrej
  | rxOffset v hf hc | rxData v idx hf hc | txAccepted hf =>
    simp only [busOrderFrom, Bool.and_eq_true] at hbus
    simpa using hbus.2
  | _ => simpa [busOrderFrom] using hbus

/-- Settles O41, by induction on the trace: no first event is rejected, and the contract holds of the rest. -/
theorem nothingIsRejectedUnderTheContract : Obligations.NothingIsRejectedUnderTheContract := by
  intro is s hbus hnack
  induction is generalizing s with
  | nil => rfl
  | cons i is ih =>
    obtain ⟨t, ht⟩ := exec_eq_next i s
    obtain ⟨hack, hnackTail⟩ := (noDataWhileNack_cons i is s t ht).mp hnack
    have hrej : rejected i s = false := not_rejected_of_busOrderFrom i is s hbus hack
    have hbusTail : busOrderFrom t.ph is = true := (exec_stepCase i s t ht).busOrderFrom_tail is hbus hrej
    exact (noneRejected_cons i is s t ht).mpr ⟨hrej, ih t hbusTail hnackTail⟩

end Sys2Proof.Machine
end

section
/-! PROOF. Words and instructions (30_encoding.md): what the fields of a word decode as, decoding and encoding as
inverses on the canonical words, a word's row of the opcode table, and the outputs the bus controller reads. -/

namespace Sys2Proof

/-! ### Words by their fields (R57 to R60, R63, R64) -/

theorem exists_packEv (w : EvWord) : ∃ k v, w = packEv k v :=
  ⟨_, _, (packEv_fields w).symm⟩

theorem exists_packHw (w : HwWord) : ∃ sel wr i d, w = packHw sel wr i d :=
  ⟨_, _, _, _, (packHw_fields w).symm⟩

/-- What each kind code names, whatever the value (R58 to R60). -/
@[simp] theorem decodeEv_packEv (v : Byte) :
    decodeEv (packEv 0#3 v) = .other ∧ decodeEv (packEv 1#3 v) = .addrW ∧ decodeEv (packEv 2#3 v) = .rxbyte v ∧
      decodeEv (packEv 3#3 v) = .addrR ∧ decodeEv (packEv 4#3 v) = .txreq ∧ decodeEv (packEv 5#3 v) = .other ∧
      decodeEv (packEv 6#3 v) = .other ∧ decodeEv (packEv 7#3 v) = .other := by
  simp [decodeEv]

/-- What each `sel` and `wr` name, whatever the index and the data (R64). -/
@[simp] theorem decodeHw_packHw (i : Index) (d : Byte) :
    decodeHw (packHw 0#1 0#1 i d) = .hrdWm i ∧ decodeHw (packHw 0#1 1#1 i d) = .hwrWm i d ∧
      decodeHw (packHw 1#1 0#1 i d) = .hrdRm i ∧ decodeHw (packHw 1#1 1#1 i d) = .hwrRm i d := by
  simp [decodeHw]

@[simp] theorem decode_ev (w : EvWord) : decode (.ev w) = decodeEv w := rfl

@[simp] theorem decode_hw (w : HwWord) : decode (.hw w) = decodeHw w := rfl

/-- A proof about every event word is one about each of the eight kinds, with any value. -/
theorem forall_evWord {P : EvWord → Prop} (h : ∀ v, P (packEv 0#3 v) ∧ P (packEv 1#3 v) ∧ P (packEv 2#3 v) ∧
    P (packEv 3#3 v) ∧ P (packEv 4#3 v) ∧ P (packEv 5#3 v) ∧ P (packEv 6#3 v) ∧ P (packEv 7#3 v))
    (w : EvWord) : P w := by
  obtain ⟨k, v, rfl⟩ := exists_packEv w
  obtain ⟨h0, h1, h2, h3, h4, h5, h6, h7⟩ := h v
  obtain rfl | rfl | rfl | rfl | rfl | rfl | rfl | rfl := kind_cases k <;> assumption

/-- A proof about every host word is one about each of the four operations, with any index and data. -/
theorem forall_hwWord {P : HwWord → Prop} (h : ∀ i d, P (packHw 0#1 0#1 i d) ∧ P (packHw 0#1 1#1 i d) ∧
    P (packHw 1#1 0#1 i d) ∧ P (packHw 1#1 1#1 i d)) (w : HwWord) : P w := by
  obtain ⟨sel, wr, i, d, rfl⟩ := exists_packHw w
  obtain ⟨h00, h01, h10, h11⟩ := h i d
  obtain rfl | rfl := bit_cases sel <;> obtain rfl | rfl := bit_cases wr <;> assumption

/-- Settles O1: the words are fixed, so the decoder is run on each. -/
theorem specWordsDecode : Obligations.SpecWordsDecode := by
  unfold Obligations.SpecWordsDecode
  decide

/-- Settles O2: the eight kinds, the word as a number, and the fields read back. -/
theorem eventWordFieldsDecideTheEvent : Obligations.EventWordFieldsDecideTheEvent :=
  ⟨decodeEv_packEv, packEv_toNat, exists_packEv⟩

/-- Settles O3: the four operations, the word as a number, and the fields read back. -/
theorem hostWordFieldsDecideTheOperation : Obligations.HostWordFieldsDecideTheOperation :=
  ⟨decodeHw_packHw, packHw_toNat, exists_packHw⟩

/-! ### Decoding and encoding (R59, R67) -/

theorem packEv_inj (k l : BitVec 3) (v u : Byte) : packEv k v = packEv l u ↔ k = l ∧ v = u := by
  refine ⟨fun h => ⟨?_, ?_⟩, by rintro ⟨rfl, rfl⟩; rfl⟩
  · simpa using congrArg evKind h
  · simpa using congrArg evValue h

theorem packHw_inj (a b p q : BitVec 1) (i j : Index) (d e : Byte) :
    packHw a b i d = packHw p q j e ↔ a = p ∧ b = q ∧ i = j ∧ d = e := by
  refine ⟨fun h => ⟨?_, ?_, ?_, ?_⟩, by rintro ⟨rfl, rfl, rfl, rfl⟩; rfl⟩
  · simpa using congrArg hwSel h
  · simpa using congrArg hwWr h
  · simpa using congrArg hwIndex h
  · simpa using congrArg hwData h

theorem decode_encode (i : Instr) : decode (encode i) = i := by
  cases i <;> simp [encode]

theorem port_encode (i : Instr) : (encode i).port = i.port := by
  cases i <;> rfl

theorem decodeNumber_encode (i : Instr) : decodeNumber i.port (encode i).number = .ok i := by
  rw [decodeNumber, ← port_encode, readPort_number, Except.map, decode_encode]

/-- A kind that names an event is its own code again, so the word comes back when its value is the encoder's; a reserved
kind comes back as kind 5 and is another word (R59). -/
theorem encode_decodeEv_iff (w : EvWord) : encode (decodeEv w) = .ev w ↔ evCanonical w = true := by
  induction w using forall_evWord with
  | h v => simp [encode, packEv_inj, evCanonical, eq_comm (a := 0#8)]

/-- `sel`, `wr` and the index come back on every word, the data on a write; a read's data comes back as 0 (R63). -/
theorem encode_decodeHw_iff (w : HwWord) : encode (decodeHw w) = .hw w ↔ hwCanonical w = true := by
  induction w using forall_hwWord with
  | h i d => simp [encode, packHw_inj, hwCanonical, eq_comm (a := 0#8)]

/-- Settles O4: the round trips from an instruction, and the one from a word at each boundary. -/
theorem decodeAndEncodeAgree : Obligations.DecodeAndEncodeAgree := by
  refine ⟨decode_encode, decodeNumber_encode, fun w => ?_⟩
  cases w with
  | ev w => exact encode_decodeEv_iff w
  | hw w => exact encode_decodeHw_iff w

/-! ### The opcode table (R72) -/

/-- An event row has the packed words of the kind its pattern names; a host row has no event word. -/
theorem opcodeTable_filter_packEv (k : BitVec 3) (v : Byte) :
    (opcodeTable.filter fun r => r.hasWord (.ev (packEv k v))) =
      eventRows.filter fun r => k.toNat * 256 == r.pattern := by
  simp [opcodeTable, eventRows, hostRows, OpcodeRow.hasWord, PortWord.port, PortWord.number, packEv_mask,
    List.filter_cons]

/-- A host row has the packed words of the `sel` and `wr` its pattern names; an event row has no host word. -/
theorem opcodeTable_filter_packHw (a b : BitVec 1) (i : Index) (d : Byte) :
    (opcodeTable.filter fun r => r.hasWord (.hw (packHw a b i d))) =
      hostRows.filter fun r => a.toNat * 131072 + b.toNat * 65536 == r.pattern := by
  simp [opcodeTable, eventRows, hostRows, OpcodeRow.hasWord, PortWord.port, PortWord.number, packHw_mask,
    List.filter_cons]

/-- Settles O5, by the eight kinds of an event word and the four operations of a host word. -/
theorem everyWordHasOneTableRow : Obligations.EveryWordHasOneTableRow := by
  intro w
  cases w with
  | ev w =>
    induction w using forall_evWord with
    | h v =>
      simp only [opcodeTable_filter_packEv, decode_ev, decodeEv_packEv]
      and_intros <;> rfl
  | hw w =>
    induction w using forall_hwWord with
    | h i d =>
      simp only [opcodeTable_filter_packHw, decode_hw, decodeHw_packHw]
      and_intros <;> rfl

end Sys2Proof

namespace Sys2Proof.Machine

/-! ### The outputs (R61) -/

/-- The index a `TXREQ` reads, from the cursor's two fields (R21, R82). -/
theorem txIndex_eq (s : State) : txIndex s = if s.cv then s.ca else 0#8 := by
  cases hcv : s.cv <;> simp [txIndex, State.cursor, hcv, Config.defaultTxOffset]

/-- The code the bus controller reads of the decision an accepted data event arms: 0, `NACK`, at index 254 alone. -/
theorem code_ackFor_succ (idx : Index) : (ackFor (succ idx)).code = if idx = 254#8 then 0#1 else 1#1 := by
  rw [ackFor_succ]
  split <;> rfl

/-- The outputs are two of the registers (R24, R25). -/
theorem busOut_congr {s t : State} (h : t.registers = s.registers) : t.busOut = s.busOut := by
  obtain ⟨-, -, -, hack, htxd⟩ := (registers_eq_iff s t).mp h
  simp only [State.busOut, hack, htxd]

/-- Settles O45: the byte and the decision of an accepted `TXREQ`, and host operations, which write no register. -/
theorem busControllerReadsAckAndTxd : Obligations.BusControllerReadsAckAndTxd := by
  refine ⟨fun s idx hph hack hidx => ?_, fun is s t hhost h => ?_⟩
  · obtain rfl : idx = txIndex s := hidx.trans (txIndex_eq s).symm
    refine ⟨_, execTxreq_accepted s ((fitsTx_iff s).mpr ⟨hph, hack⟩), ?_⟩
    exact Prod.ext (code_ackFor_succ (txIndex s)) rfl
  · exact runTrace_keeps State.busOut is s t
      (fun i hi u w hst => busOut_congr (registers_of_host i u w (hhost i hi) hst)) h

end Sys2Proof.Machine
end

section
/-! PROOF. The receive path (40_receive_path.md): `ADDR_W` in every state, and the offset case and the data case of an
accepted `RXBYTE`. -/

namespace Sys2Proof.Machine

/-- Settles O9: re-addressing with the cursor cleared first. -/
theorem addrWClearsCursorAndEntersReceive : Obligations.AddrWClearsCursorAndEntersReceive :=
  fun s => congrArg Host.Outcome.next (readdress_eq .rx (s.setCursor none))

/-- Settles O10: the event fits and the cursor is unset, so it is the offset case. -/
theorem rxbyteTakesTheOffset : Obligations.RxbyteTakesTheOffset := by
  intro s v hph hack hcv
  exact execRxbyte_offset v s ((fitsRx_iff s).mpr ⟨hph, hack⟩) (s.cursor_eq_none_iff.mpr hcv)

/-- Everything an accepted data event leaves besides its byte: the cursor one on, modulo 256, and the decision by the
index it used (R77, R102). -/
theorem advanceCursor_setAck_eq (idx : Index) (s : State) :
    (advanceCursor idx s).setAck (ackFor (succ idx)) =
      { s with cv := true, ca := idx + 1#8, ackarm := if idx = 254#8 then .nack else .ack } := by
  rw [← ackFor_succ, ← succ_eq_add_one]
  rfl

/-- Settles O11: the event fits and the cursor is set, so it is the data case, a store at the cursor and then the
advance. -/
theorem rxbyteStoresAtTheCursor : Obligations.RxbyteStoresAtTheCursor := by
  intro s v hph hack hcv
  have hf : fitsRx s = true := (fitsRx_iff s).mpr ⟨hph, hack⟩
  have hc : s.cursor = some s.ca := (s.cursor_eq_some_iff s.ca).mpr ⟨hcv, rfl⟩
  refine ⟨_, execRxbyte_data v s s.ca hf hc, ?_, fun k hk => ?_, ?_⟩
  · simp [memRead_memWrite_self]
  · simp [memRead_memWrite_other, hk]
  · exact advanceCursor_setAck_eq s.ca (memWrite .wm s.ca v s)

end Sys2Proof.Machine
end

section
/-! PROOF. The transmit path (41_transmit_path.md): `ADDR_R` in every state, an accepted `TXREQ`, and `TXD`, which is
held from one accepted `TXREQ` to the next. -/

namespace Sys2Proof.Machine

/-- Settles O13: re-addressing, with nothing done to the cursor. -/
theorem addrRKeepsCursorAndEntersTransmit : Obligations.AddrRKeepsCursorAndEntersTransmit :=
  fun s => congrArg Host.Outcome.next (readdress_eq .tx s)

/-- Settles O14: the event fits, so it supplies the byte at its read index and advances the cursor from there. -/
theorem txreqSuppliesTheByteAtTheCursor : Obligations.TxreqSuppliesTheByteAtTheCursor := by
  intro s idx hph hack hidx
  obtain rfl : idx = txIndex s := hidx.trans (txIndex_eq s).symm
  have hexec := execTxreq_accepted s ((fitsTx_iff s).mpr ⟨hph, hack⟩)
  rw [advanceCursor_setAck_eq] at hexec
  exact hexec

/-- An accepted `TXREQ` leaves the phase and sets the cursor (R81). -/
theorem StepCase.ph_and_cursor_of_accepted_txreq {s t : State} (h : StepCase s .txreq t)
    (ha : accepted .txreq s = true) : t.ph = s.ph ∧ t.cursor ≠ none := by
  cases h with
  | txAccepted hf => simp
  | txRejected hf => simp [hf] at ha

/-! ### Who writes `TXD` (R25, R84) -/

@[simp] theorem txd_advanceCursor (x : Index) (s : State) : (advanceCursor x s).txd = s.txd := rfl

@[simp] theorem txd_otherPath (s : State) : (otherPath s).txd = s.txd := rfl

@[simp] theorem txd_readdress (p : Phase) (s : State) : (readdress p s).txd = s.txd := rfl

@[simp] theorem txd_hostRead (S : ArrayId) (i : Index) (s : State) : (hostRead S i s).txd = s.txd := rfl

@[simp] theorem txd_hostWrite (S : ArrayId) (i : Index) (d : Byte) (s : State) :
    (hostWrite S i d s).txd = s.txd := by
  simp [hostWrite]

/-- Only an accepted `TXREQ` writes `TXD` (D17). -/
theorem StepCase.txd_of_no_accepted_txreq {i : Instr} {s t : State} (h : StepCase s i t)
    (hno : i = .txreq → accepted i s = false) : t.txd = s.txd := by
  cases h with
  | txAccepted hf => simp [hf] at hno
  | _ => simp

theorem noAcceptedTxreq_cons (i : Instr) (is : List Instr) (s t : State) (h : exec i s = .next t) :
    noAcceptedTxreq (i :: is) s = true ↔
      (i = .txreq → accepted i s = false) ∧ noAcceptedTxreq is t = true := by
  obtain rfl | hi := eq_or_ne i .txreq
  · simp [noAcceptedTxreq, h]
  · simp [noAcceptedTxreq, h, hi]

/-- A run in which no `TXREQ` is accepted holds `TXD`, by induction on the run. -/
theorem txd_of_noAcceptedTxreq (is : List Instr) (s t : State) (hno : noAcceptedTxreq is s = true)
    (h : runTrace is s = .next t) : t.txd = s.txd := by
  induction is generalizing s with
  | nil => cases h; rfl
  | cons i is ih =>
    obtain ⟨u, hu, hr⟩ := runTrace_cons_inv i is s t h
    obtain ⟨hfirst, hrest⟩ := (noAcceptedTxreq_cons i is s u hu).mp hno
    exact (ih u hrest hr).trans ((exec_stepCase i s u hu).txd_of_no_accepted_txreq hfirst)

/-- Settles O37: a `TXREQ` reads the arrays only, an accepted one sets the cursor, and `TXD` is held over the run. -/
theorem txdHeldUntilNextAcceptedTxreq : Obligations.TxdHeldUntilNextAcceptedTxreq := by
  refine ⟨fun s t h => ?_, txd_of_noAcceptedTxreq⟩
  have hcase : StepCase s .txreq t := exec_stepCase .txreq s t h
  obtain ⟨hwm, hrm⟩ := hcase.arrays_of_read (.inl rfl)
  exact ⟨hwm, hrm, hcase.ph_and_cursor_of_accepted_txreq⟩

end Sys2Proof.Machine
end

section
/-! PROOF. The `OTHER` event and the fit table (42_other_event.md): the Other path, which data events do not fit, the
seven state classes, and the end state of every event in each of them. -/

namespace Sys2Proof.Machine

/-! ### The Other path (R86, R87, R89) -/

/-- Settles O15: the Other path, in every state. -/
theorem otherResetsCursorAndPhase : Obligations.OtherResetsCursorAndPhase :=
  fun s => congrArg Host.Outcome.next (otherPath_eq s)

theorem fitsRx_eq_false_iff (s : State) : fitsRx s = false ↔ ¬(s.ph = .rx ∧ s.ackarm = .ack) := by
  rw [← fitsRx_iff, Bool.not_eq_true]

theorem fitsTx_eq_false_iff (s : State) : fitsTx s = false ↔ ¬(s.ph = .tx ∧ s.ackarm = .ack) := by
  rw [← fitsTx_iff, Bool.not_eq_true]

/-- Settles O12: a data event that does not fit is the rejected case, which is the Other path. -/
theorem misfitTakesTheOtherPath : Obligations.MisfitTakesTheOtherPath :=
  ⟨fun s v h => execRxbyte_rejected v s ((fitsRx_eq_false_iff s).mpr h),
    fun s h => execTxreq_rejected s ((fitsTx_eq_false_iff s).mpr h)⟩

/-- Two states alike but for the cursor, `PH` and `ACKARM` are one state after the Other path (R90). -/
theorem otherPath_congr (s : State) (cv : Bool) (ca : Byte) (p : Phase) (d : AckDec) :
    otherPath { s with cv := cv, ca := ca, ph := p, ackarm := d } = otherPath s := rfl

/-- `ADDR_W; RXBYTE x` sets offset `x` from any state, since `ADDR_W` leaves the cursor unset and the event fitting
(R109). -/
theorem runTrace_pseudoSetoff (x : Byte) (s : State) :
    runTrace (pseudoSetoff x) s = .next { s with cv := true, ca := x, ph := .rx, ackarm := .ack } := by
  rw [pseudoSetoff, runTrace_cons _ _ _ _ (addrWClearsCursorAndEntersReceive s),
    runTrace_cons _ _ _ _ (rxbyteTakesTheOffset _ x rfl rfl rfl), runTrace_nil]

/-- Settles O32: the Other path once more changes nothing, and what it clears it does not read. -/
theorem otherPathErasesHistory : Obligations.OtherPathErasesHistory := by
  refine ⟨fun s t h => ?_, fun s cv ca p d => ?_, fun s x => runTrace_pseudoSetoff x s⟩
  · cases exec_stepCase .other s t h
    exact congrArg Host.Outcome.next (otherPath_idem s)
  · exact congrArg Host.Outcome.next (otherPath_congr s cv ca p d)

/-! ### The seven state classes (R88) -/

/-- What it is to be of each class: the row's phase, cursor and decision. -/
theorem StateClass.holds_iff (s : State) :
    (StateClass.idle.holds s = true ↔ s.ph = .idle ∧ s.cursor = none ∧ s.ackarm = .ack) ∧
    (StateClass.rxUnset.holds s = true ↔ s.ph = .rx ∧ s.cursor = none ∧ s.ackarm = .ack) ∧
    (StateClass.rxSet.holds s = true ↔ s.ph = .rx ∧ s.cursor.isSome = true ∧ s.ackarm = .ack) ∧
    (StateClass.rxTerminal.holds s = true ↔ s.ph = .rx ∧ s.cursor = some 255#8 ∧ s.ackarm = .nack) ∧
    (StateClass.txUnset.holds s = true ↔ s.ph = .tx ∧ s.cursor = none ∧ s.ackarm = .ack) ∧
    (StateClass.txSet.holds s = true ↔ s.ph = .tx ∧ s.cursor.isSome = true ∧ s.ackarm = .ack) ∧
    (StateClass.txTerminal.holds s = true ↔ s.ph = .tx ∧ s.cursor = some 255#8 ∧ s.ackarm = .nack) := by
  simp [StateClass.holds, and_assoc]

/-- The only class a state can be of, by its phase, its cursor and its decision. -/
def State.stateClass (s : State) : StateClass :=
  match s.ph, s.cursor, s.ackarm with
  | .idle, _, _ => .idle
  | .rx, none, _ => .rxUnset
  | .rx, some _, .ack => .rxSet
  | .rx, some _, .nack => .rxTerminal
  | .tx, none, _ => .txUnset
  | .tx, some _, .ack => .txSet
  | .tx, some _, .nack => .txTerminal

/-- No state is of two classes, whether it meets the invariants or not. -/
theorem StateClass.eq_stateClass_of_holds {c : StateClass} {s : State} (h : c.holds s = true) : c = s.stateClass := by
  cases c <;> simp only [StateClass.holds_iff] at h <;> obtain ⟨hph, hc, hack⟩ := h
  case rxSet | txSet =>
    obtain ⟨i, hi⟩ := Option.isSome_iff_exists.mp hc
    simp [State.stateClass, hph, hi, hack]
  all_goals simp [State.stateClass, hph, hc, hack]

/-- A state that meets the invariants is of its class: under `NACK` the cursor is at 255 in a phase that is not `IDLE`
(I4), and in `IDLE` the cursor is unset (I3). -/
theorem Invariants.stateClass_holds {s : State} (h : Invariants s) : s.stateClass.holds s = true := by
  cases hack : s.ackarm with
  | nack =>
    obtain ⟨hph, hcv, hca⟩ := h.nackTerminal hack
    have hc : s.cursor = some 255#8 := (s.cursor_eq_some_iff _).mpr ⟨hcv, hca⟩
    cases hp : s.ph with
    | idle => exact absurd hp hph
    | rx | tx => simp [State.stateClass, StateClass.holds_iff, hp, hc, hack]
  | ack =>
    cases hp : s.ph with
    | idle =>
      have hc : s.cursor = none := s.cursor_eq_none_iff.mpr (h.idleUnset hp)
      simp [State.stateClass, StateClass.holds_iff, hp, hc, hack]
    | rx | tx => cases hc : s.cursor <;> simp [State.stateClass, StateClass.holds_iff, hp, hc, hack]

/-- Settles O28: the class is the one read off the phase, the cursor and the decision. -/
theorem invariantStatesAreSevenClasses : Obligations.InvariantStatesAreSevenClasses :=
  fun s hinv => ⟨s.stateClass, hinv.stateClass_holds, fun _ hc => StateClass.eq_stateClass_of_holds hc⟩

/-! ### The cells of the fit table (R88) -/

theorem endsIn_addrW (s : State) : endsIn .addrW s .rx none .ack :=
  ⟨_, addrWClearsCursorAndEntersReceive s, rfl, rfl, rfl⟩

theorem endsIn_addrR {s : State} {c : Option Byte} (hc : s.cursor = c) : endsIn .addrR s .tx c .ack :=
  ⟨_, addrRKeepsCursorAndEntersTransmit s, rfl, hc, rfl⟩

theorem endsIn_other (s : State) : endsIn .other s .idle none .ack :=
  ⟨_, otherResetsCursorAndPhase s, rfl, rfl, rfl⟩

theorem endsIn_rxbyte_misfit {s : State} (v : Byte) (h : ¬(s.ph = .rx ∧ s.ackarm = .ack)) :
    endsIn (.rxbyte v) s .idle none .ack :=
  ⟨_, misfitTakesTheOtherPath.1 s v h, rfl, rfl, rfl⟩

theorem endsIn_txreq_misfit {s : State} (h : ¬(s.ph = .tx ∧ s.ackarm = .ack)) : endsIn .txreq s .idle none .ack :=
  ⟨_, misfitTakesTheOtherPath.2 s h, rfl, rfl, rfl⟩

theorem endsIn_rxbyte_offset {s : State} (v : Byte) (hph : s.ph = .rx) (hc : s.cursor = none)
    (hack : s.ackarm = .ack) : endsIn (.rxbyte v) s .rx (some v) .ack :=
  ⟨_, rxbyteTakesTheOffset s v hph hack (s.cursor_eq_none_iff.mp hc), hph, rfl, rfl⟩

/-- The data case of `RXBYTE`, with the byte it stores. -/
theorem endsIn_rxbyte_data {s : State} (v : Byte) {i : Index} (hph : s.ph = .rx) (hc : s.cursor = some i)
    (hack : s.ackarm = .ack) :
    endsIn (.rxbyte v) s .rx (some (i + 1#8)) (if i = 254#8 then .nack else .ack) ∧
      ∃ t, exec (.rxbyte v) s = .next t ∧ memRead .wm i t = v := by
  obtain ⟨hcv, rfl⟩ := (s.cursor_eq_some_iff i).mp hc
  obtain ⟨t, ht, hstored, -, heq⟩ := rxbyteStoresAtTheCursor s v hph hack hcv
  refine ⟨⟨t, ht, ?_⟩, t, ht, hstored⟩
  rw [heq]
  exact ⟨hph, rfl, rfl⟩

theorem txIndex_of_unset {s : State} (hc : s.cursor = none) : txIndex s = 0#8 := by
  simp [txIndex, hc, Config.defaultTxOffset]

theorem txIndex_of_set {s : State} {i : Index} (hc : s.cursor = some i) : txIndex s = i := by
  simp [txIndex, hc]

/-- An accepted `TXREQ`, with the byte it supplies. -/
theorem endsIn_txreq_accepted {s : State} {i : Index} (hph : s.ph = .tx) (hi : txIndex s = i)
    (hack : s.ackarm = .ack) :
    endsIn .txreq s .tx (some (i + 1#8)) (if i = 254#8 then .nack else .ack) ∧
      ∃ t, exec .txreq s = .next t ∧ t.txd = memRead .rm i s := by
  have hexec := txreqSuppliesTheByteAtTheCursor s i hph hack (hi.symm.trans (txIndex_eq s))
  exact ⟨⟨_, hexec, hph, rfl, rfl⟩, _, hexec, rfl⟩

/-- The row of a state in which neither data event fits: both do the Other path, and `ADDR_R` alone keeps the cursor. -/
theorem endsIn_of_no_fit {s : State} {c : Option Byte} (v : Byte) (hrx : ¬(s.ph = .rx ∧ s.ackarm = .ack))
    (htx : ¬(s.ph = .tx ∧ s.ackarm = .ack)) (hc : s.cursor = c) :
    endsIn .addrW s .rx none .ack ∧ endsIn (.rxbyte v) s .idle none .ack ∧ endsIn .addrR s .tx c .ack ∧
      endsIn .txreq s .idle none .ack ∧ endsIn .other s .idle none .ack :=
  ⟨endsIn_addrW s, endsIn_rxbyte_misfit v hrx, endsIn_addrR hc, endsIn_txreq_misfit htx, endsIn_other s⟩

/-- Settles O29, row by row: in `RX` with `ACK` the `RXBYTE` fits, in `TX` with `ACK` the `TXREQ`, else neither. -/
theorem fitTableRows : Obligations.FitTableRows := by
  intro s v
  simp only [StateClass.holds_iff]
  refine ⟨?idle, ?rxUnset, ?rxSet, ?rxTerminal, ?txUnset, ?txSet, ?txTerminal⟩
  case idle =>
    rintro ⟨hph, hc, hack⟩
    exact endsIn_of_no_fit v (by simp [hph]) (by simp [hph]) hc
  case rxTerminal | txTerminal =>
    rintro ⟨hph, hc, hack⟩
    exact endsIn_of_no_fit v (by simp [hack]) (by simp [hack]) hc
  case rxUnset =>
    rintro ⟨hph, hc, hack⟩
    exact ⟨endsIn_addrW s, endsIn_rxbyte_offset v hph hc hack, endsIn_addrR hc, endsIn_txreq_misfit (by simp [hph]),
      endsIn_other s⟩
  case rxSet =>
    rintro ⟨hph, -, hack⟩ i hc
    obtain ⟨hends, hstored⟩ := endsIn_rxbyte_data v hph hc hack
    exact ⟨endsIn_addrW s, hends, hstored, endsIn_addrR hc, endsIn_txreq_misfit (by simp [hph]), endsIn_other s⟩
  case txUnset =>
    rintro ⟨hph, hc, hack⟩
    obtain ⟨hends, hsupplied⟩ := endsIn_txreq_accepted hph (txIndex_of_unset hc) hack
    exact ⟨endsIn_addrW s, endsIn_rxbyte_misfit v (by simp [hph]), endsIn_addrR hc, hends, hsupplied, endsIn_other s⟩
  case txSet =>
    rintro ⟨hph, -, hack⟩ i hc
    obtain ⟨hends, hsupplied⟩ := endsIn_txreq_accepted hph (txIndex_of_set hc) hack
    exact ⟨endsIn_addrW s, endsIn_rxbyte_misfit v (by simp [hph]), endsIn_addrR hc, hends, hsupplied, endsIn_other s⟩

end Sys2Proof.Machine
end

section
/-! PROOF. The host port (43_host_port.md): the four host operations by their words, what each returns or writes, its
frame, what the host reads back from `RM`, and the order of a host write and the `TXREQ` that reads its index. -/

namespace Sys2Proof.Machine

/-! ### The words (R63, R64) -/

/-- The canonical host word of each operation as a number: `sel` and `wr` above the index and the data. -/
@[simp] theorem number_encode_host (i : Index) :
    (encode (.hrdWm i)).number = i.toNat * 256 ∧
      (∀ d, (encode (.hwrWm i d)).number = 0x10000 + i.toNat * 256 + d.toNat) ∧
      (encode (.hrdRm i)).number = 0x20000 + i.toNat * 256 ∧
      ∀ d, (encode (.hwrRm i d)).number = 0x30000 + i.toNat * 256 + d.toNat := by
  simp [encode, PortWord.number, packHw_toNat]

/-! ### What an operation changes and what it leaves -/

/-- No instruction writes the words still to come (log entry 1), since replacing them commutes with running it: put
`s.trace` in its own place. -/
theorem trace_of_exec {i : Instr} {s t : State} (h : exec i s = .next t) : t.trace = s.trace := by
  have hset : exec i s = .next (t.setTrace s.trace) := exec_setTrace i s t s.trace h
  have heq : t = t.setTrace s.trace := Host.Outcome.next.inj (h.symm.trans hset)
  exact (congrArg State.trace heq).trans (State.setTrace_trace t s.trace)

/-- A host operation leaves every register of the block, and the words still to come, as they were (R40, R113). -/
theorem registers_and_trace_of_host {i : Instr} {s t : State} (hi : isEvent i = false) (h : exec i s = .next t) :
    t.cv = s.cv ∧ t.ca = s.ca ∧ t.ph = s.ph ∧ t.ackarm = s.ackarm ∧ t.txd = s.txd ∧ t.trace = s.trace := by
  obtain ⟨hcv, hca, hph, hack, htxd⟩ := (registers_eq_iff s t).mp (registers_of_host i s t hi h)
  exact ⟨hcv, hca, hph, hack, htxd, trace_of_exec h⟩

theorem memRead_of_arrays {s t : State} (hwm : t.wm = s.wm) (hrm : t.rm = s.rm) (S : ArrayId) (k : Index) :
    memRead S k t = memRead S k s := by
  cases S with
  | wm => exact memRead_congr .wm k t s hwm
  | rm => exact memRead_congr .rm k t s hrm

/-- In the array a host write names, it writes the operand's entry and no other (R93, R95). -/
theorem memRead_hostWrite_named (S : ArrayId) (i : Index) (d : Byte) (s : State) :
    memRead S i (hostWrite S i d s) = d ∧
      ∀ k, k ≠ i → memRead S k (hostWrite S i d s) = memRead S k s := by
  refine ⟨?_, fun k hk => ?_⟩
  · simp [memRead_hostWrite]
  · simp [memRead_hostWrite, hk]

/-- Settles O24: a read leaves both arrays, and no host operation writes a register. -/
theorem hostReadFrame : Obligations.HostReadFrame := by
  intro x i s t hx h
  have hhost : isEvent x = false := by obtain rfl | rfl := hx <;> rfl
  obtain ⟨hwm, hrm⟩ := (exec_stepCase x s t h).arrays_of_read (.inr ⟨i, hx⟩)
  exact ⟨memRead_of_arrays hwm hrm, registers_and_trace_of_host hhost h⟩

/-- Settles O25: a write reaches one entry of the array it names, and no host operation writes a register. -/
theorem hostWriteFrame : Obligations.HostWriteFrame := by
  intro x S i d s t hx h
  have hhost : isEvent x = false := by obtain ⟨rfl, -⟩ | ⟨rfl, -⟩ := hx <;> rfl
  have hwrite : t = hostWrite S i d s := by
    obtain ⟨rfl, rfl⟩ | ⟨rfl, rfl⟩ := hx <;> cases h <;> rfl
  refine ⟨fun T k hk => ?_, registers_and_trace_of_host hhost h⟩
  rw [hwrite, memRead_hostWrite, if_neg hk]

/-! ### The operations on `WM` (R92, R93) -/

/-- Settles O16: the read's words, the byte read as its answer, and the reset byte where nothing is written. -/
theorem hostReadOfWriteMemory : Obligations.HostReadOfWriteMemory := by
  intro i s
  exact ⟨by simp, by simp, rfl, memRead_unwritten .wm i s⟩

/-- Settles O17: the write's words, and the one entry of `WM` it writes. -/
theorem hostWriteOfWriteMemory : Obligations.HostWriteOfWriteMemory := by
  intro i d s
  obtain ⟨hself, hother⟩ := memRead_hostWrite_named .wm i d s
  exact ⟨by simp, by simp, hostWrite .wm i d s, rfl, hself, hother, rfl⟩

/-! ### The operations on `RM` (R94, R95) -/

/-- After any run from reset, an entry of `RM` reads as the host's latest write to it, or as its reset byte (R48). -/
theorem memRead_rm_of_run_from_reset (is : List Instr) (t : State) (i : Index)
    (h : runTrace is State.reset = .next t) :
    memRead .rm i t = latestRmWrite i is (resetByteFor Config.memInit .rm i) := by
  obtain ⟨-, -, -, -, -, hreset, -⟩ := resetLeavesTheIdleStateAndMemInit
  rw [readMemoryHoldsTheLatestHostWrite is State.reset t i h, hreset]

/-- Settles O18: the read's words, the byte read as its answer, and what `RM` holds after a run from reset. -/
theorem hostReadOfReadMemory : Obligations.HostReadOfReadMemory := by
  intro i s
  refine ⟨by simp, by simp, rfl, fun is t h => ?_⟩
  rw [← memRead_rm_of_run_from_reset is t i h]
  rfl

/-- `HWR_RM` is the only way `RM` changes (R95): no event writes it, and the host's other operations read, or write
`WM`. -/
theorem StepCase.rm_of_ne_hwrRm {i : Instr} {s t : State} (h : StepCase s i t) (hne : ∀ k d, i ≠ .hwrRm k d) :
    t.rm = s.rm := by
  cases hev : isEvent i with
  | true => exact h.rm_of_event hev
  | false =>
    cases h with
    | hwrRm k d => exact absurd rfl (hne k d)
    | hrdWm k | hwrWm k d | hrdRm k => rfl
    | _ => simp at hev

/-! ### A host write and the `TXREQ` that reads its index (R48, R95) -/

theorem runTrace_pair {i j : Instr} {s t u : State} (hi : exec i s = .next t) (hj : exec j t = .next u) :
    runTrace [i, j] s = .next u := by
  rw [runTrace_cons i [j] s t hi, runTrace_cons j [] t u hj, runTrace_nil]

/-- A host write does not move the index a `TXREQ` reads: it is the cursor's. -/
theorem txIndex_hostWrite (S : ArrayId) (i : Index) (d : Byte) (s : State) :
    txIndex (hostWrite S i d s) = txIndex s := by
  simp [txIndex, hostWrite]

/-- The `TXREQ` after a host write to the index it reads supplies the byte written. -/
theorem txd_of_hwrRm_txreq (s : State) (d : Byte) (hph : s.ph = .tx) (hack : s.ackarm = .ack) :
    ∃ t, runTrace [.hwrRm (txIndex s) d, .txreq] s = .next t ∧ t.txd = d := by
  have hph' : (hostWrite .rm (txIndex s) d s).ph = .tx := by simp [hph]
  have hack' : (hostWrite .rm (txIndex s) d s).ackarm = .ack := by simp [hack]
  obtain ⟨-, t, ht, htxd⟩ := endsIn_txreq_accepted hph' (txIndex_hostWrite ..) hack'
  refine ⟨t, runTrace_pair rfl ht, ?_⟩
  rw [htxd, (memRead_hostWrite_named ..).1]

/-- A host write after the `TXREQ` that reads its index leaves `TXD` at the byte supplied. -/
theorem txd_of_txreq_hwrRm (s : State) (d : Byte) (hph : s.ph = .tx) (hack : s.ackarm = .ack) :
    ∃ t, runTrace [.txreq, .hwrRm (txIndex s) d] s = .next t ∧ t.txd = memRead .rm (txIndex s) s := by
  obtain ⟨-, t, ht, htxd⟩ := endsIn_txreq_accepted hph rfl hack
  exact ⟨hostWrite .rm (txIndex s) d t, runTrace_pair ht rfl, (txd_hostWrite ..).trans htxd⟩

/-- Settles O19: the write's words and the one entry of `RM` it writes, the other instructions, and the two orders with
the `TXREQ`. -/
theorem hostWriteOfReadMemory : Obligations.HostWriteOfReadMemory := by
  refine ⟨fun i d s => ?_, fun x s t hx h => (exec_stepCase x s t h).rm_of_ne_hwrRm hx, fun s d hph hack => ?_⟩
  · obtain ⟨hself, hother⟩ := memRead_hostWrite_named .rm i d s
    exact ⟨by simp, by simp, hostWrite .rm i d s, rfl, hself, hother, rfl⟩
  · exact ⟨txd_of_hwrRm_txreq s d hph hack, txd_of_txreq_hwrRm s d hph hack⟩

end Sys2Proof.Machine
end

section
/-! PROOF. The frames of the five events (44_transactions.md R113), the index a data event uses (R102), and how the
events move the cursor (R99, R100), at the terminal index and at 255 too (R107, R108). -/

namespace Sys2Proof.Machine

/-! ### What an event leaves as it was (R113) -/

/-- The host's latest answer is the host's alone (log entry 2). -/
theorem StepCase.hostResult_of_event {i : Instr} {s t : State} (h : StepCase s i t) (hi : isEvent i = true) :
    t.hostResult = s.hostResult := by
  cases h with
  | hrdWm k | hwrWm k d | hrdRm k | hwrRm k d => simp at hi
  | rxData v idx hf hc => exact memWrite_hostResult .wm idx v s
  | _ => rfl

/-- Of the events only `RXBYTE` writes an array (R18, R43). -/
theorem StepCase.wm_of_event {i : Instr} {s t : State} (h : StepCase s i t) (hi : isEvent i = true)
    (hne : ∀ v, i ≠ .rxbyte v) : t.wm = s.wm := by
  cases h with
  | hrdWm k | hwrWm k d | hrdRm k | hwrRm k d => simp at hi
  | rxOffset v hf hc | rxData v idx hf hc | rxRejected v hf => exact absurd rfl (hne v)
  | _ => simp

/-- An accepted data event stays in its phase (R75, R81). -/
theorem StepCase.ph_of_accepted {i : Instr} {s t : State} (h : StepCase s i t) (ha : accepted i s = true) :
    t.ph = s.ph := by
  cases h with
  | rxOffset v hf hc | rxData v idx hf hc | txAccepted hf => simp
  | rxRejected v hf | txRejected hf => simp [hf] at ha
  | _ => simp at ha

/-- Settles O21: none of the three writes an array or `TXD`, and `ADDR_R` only enters its phase and arms `ACK`. -/
theorem addressingAndOtherFrame : Obligations.AddressingAndOtherFrame := by
  intro i s t hi h
  have hcase : StepCase s i t := exec_stepCase i s t h
  have hev : isEvent i = true := by obtain rfl | rfl | rfl := hi <;> rfl
  have hwm : t.wm = s.wm := hcase.wm_of_event hev (by rintro v rfl; simp at hi)
  have htxd : t.txd = s.txd := hcase.txd_of_no_accepted_txreq (by rintro rfl; simp at hi)
  refine ⟨memRead_of_arrays hwm (hcase.rm_of_event hev), htxd, hcase.hostResult_of_event hev, trace_of_exec h, ?_⟩
  rintro rfl
  cases hcase
  exact ⟨rfl, rfl⟩

/-- Settles O22: the one entry an `RXBYTE` writes is at the index of its data case. -/
theorem rxbyteFrame : Obligations.RxbyteFrame := by
  intro v s t h
  have hcase : StepCase s (.rxbyte v) t := exec_stepCase _ s t h
  refine ⟨fun a ha k hk => ?_, fun hnone k => ?_, fun k => ?_, hcase.txd_of_no_accepted_txreq nofun,
    hcase.hostResult_of_event rfl, trace_of_exec h, hcase.ph_of_accepted⟩
  · simp [hcase.memRead_wm, wmWriteAt, ha, hk.symm]
  · simp [hcase.memRead_wm, wmWriteAt, hnone]
  · exact memRead_congr .rm k t s (hcase.rm_of_event rfl)

/-- Settles O23: a `TXREQ` writes no array, and a rejected one does not write `TXD`. -/
theorem txreqFrame : Obligations.TxreqFrame := by
  intro s t h
  have hcase : StepCase s .txreq t := exec_stepCase _ s t h
  exact ⟨memRead_of_arrays (hcase.wm_of_event rfl nofun) (hcase.rm_of_event rfl), hcase.hostResult_of_event rfl,
    trace_of_exec h, hcase.ph_of_accepted, fun hf => hcase.txd_of_no_accepted_txreq fun _ => hf⟩

/-! ### The index a data event uses (R102) -/

theorem accepted_of_dataIndex? {i : Instr} {s : State} {x : Index} (hx : dataIndex? i s = some x) :
    accepted i s = true := by
  cases i with
  | rxbyte v => exact ((rxStoreIndex?_eq_some_iff s x).mp hx).1
  | txreq =>
    cases hf : fitsTx s <;> simp [hf] at hx ⊢
  | _ => cases hx

/-- Post-increment: the data event that uses index `x` leaves the cursor at its successor, with the decision for it. -/
theorem StepCase.cursor_and_ackarm_of_dataIndex? {i : Instr} {s t : State} {x : Index} (h : StepCase s i t)
    (hx : dataIndex? i s = some x) : t.cursor = some (succ x) ∧ t.ackarm = ackFor (succ x) := by
  cases h with
  | rxOffset v hf hc | rxRejected v hf => simp [rxStoreIndex?_eq_some_iff, *] at hx
  | rxData v idx hf hc =>
    obtain rfl : idx = x := by simpa [rxStoreIndex?_eq_some_iff, hf, hc] using hx
    simp
  | txAccepted hf =>
    obtain rfl : txIndex s = x := by simpa [hf] using hx
    simp
  | txRejected hf => simp [hf] at hx
  | _ => cases hx

/-- A rejected data event is the Other path (R89). -/
theorem StepCase.eq_otherPath_of_rejected {i : Instr} {s t : State} (h : StepCase s i t)
    (hr : rejected i s = true) : t = otherPath s := by
  cases h with
  | rxRejected v hf | txRejected hf => rfl
  | rxOffset v hf hc | rxData v idx hf hc | txAccepted hf => simp [hf] at hr
  | _ => simp at hr

/-- Under `NACK` every data event is rejected (D4). -/
theorem rejected_of_nack {i : Instr} {s : State} (hi : isData i = true) (hack : s.ackarm = .nack) :
    rejected i s = true := by
  cases i with
  | rxbyte v | txreq => simp [fitsRx, fitsTx, hack]
  | _ => cases hi

theorem dataIndex?_rxbyte {s : State} (v : Byte) {x : Index} (hf : fitsRx s = true) (hc : s.cursor = some x) :
    dataIndex? (.rxbyte v) s = some x :=
  (rxStoreIndex?_eq_some_iff s x).mpr ⟨hf, hc⟩

theorem dataIndex?_txreq {s : State} (hf : fitsTx s = true) : dataIndex? .txreq s = some (txIndex s) := by
  simp [hf]

/-- The `TXREQ` that uses index `x` supplies the byte of `RM` there (R81). -/
theorem StepCase.txd_of_dataIndex? {s t : State} {x : Index} (h : StepCase s .txreq t)
    (hx : dataIndex? .txreq s = some x) : t.txd = memRead .rm x s := by
  cases h with
  | txAccepted hf =>
    obtain rfl : txIndex s = x := by simpa [hf] using hx
    rfl
  | txRejected hf => simp [hf] at hx

/-! ### How the cursor moves (R99, R100, R107, R108) -/

/-- Settles O30, row by row: a data event moves the cursor by its index, a rejected one does the Other path, and the
host does not reach it. -/
theorem cursorMovesAsTabled : Obligations.CursorMovesAsTabled := by
  intro s t
  refine ⟨?addrW, ?rxbyte, ?addrR, ?txreq, ?other, ?host⟩
  case addrW | addrR | other => rintro ⟨⟩; rfl
  case rxbyte =>
    intro v h
    have hcase : StepCase s (.rxbyte v) t := exec_stepCase _ s t h
    refine ⟨fun hacc hc => ?_, fun i hacc hc => ?_, fun hrej => ?_⟩
    · cases h.symm.trans (execRxbyte_offset v s hacc hc)
      rfl
    · exact (hcase.cursor_and_ackarm_of_dataIndex? (dataIndex?_rxbyte v hacc hc)).1
    · rw [hcase.eq_otherPath_of_rejected hrej]
      rfl
  case txreq =>
    intro h
    have hcase : StepCase s .txreq t := exec_stepCase _ s t h
    have hmove (hacc : accepted .txreq s = true) : t.cursor = some (succ (txIndex s)) :=
      (hcase.cursor_and_ackarm_of_dataIndex? (dataIndex?_txreq hacc)).1
    refine ⟨fun hacc hc => ?_, fun i hacc hc => ?_, fun hrej => ?_⟩
    · rw [hmove hacc, txIndex_of_unset hc]
      rfl
    · rw [hmove hacc, txIndex_of_set hc]
    · rw [hcase.eq_otherPath_of_rejected hrej]
      rfl
  case host =>
    intro x hx h
    obtain ⟨hcv, hca, -⟩ := registers_and_trace_of_host hx h
    exact cursor_congr hcv hca

theorem succ_injective : Function.Injective succ := by
  intro i j h
  simpa [succ_eq_add_one] using h

/-- Advancing the cursor `k` times from `i` leads to the offset `k` places on. -/
theorem iterate_succ_eq_offsetAt (i : Index) (k : Nat) : succ^[k] i = offsetAt i k := by
  induction k with
  | zero => exact (offsetAt_zero i).symm
  | succ k ih => rw [Function.iterate_succ_apply', ih, succ_offsetAt]

theorem offsetAt_memSize (i : Index) : offsetAt i 256 = i := by
  apply BitVec.eq_of_toNat_eq
  simp [offsetAt, i.isLt]

/-- Settles O46: an increment modulo 256 is a bijection of order 256. -/
theorem successorLaws : Obligations.SuccessorLaws := by
  refine ⟨fun i hi => ?_, rfl, succ_injective, fun j => ⟨j - 1#8, ?_⟩, fun i => ?_, succ_eq_terminal_iff⟩
  · rw [succ_toNat, Nat.mod_eq_of_lt (by omega)]
  · simp [succ_eq_add_one]
  · rw [iterate_succ_eq_offsetAt, offsetAt_memSize]

/-- Settles O51: the event that uses 254 arms `NACK`, and no data event fits then. -/
theorem terminalIndexEndsTheTransfer : Obligations.TerminalIndexEndsTheTransfer := by
  intro i j s hi hj
  obtain ⟨t, ht⟩ := exec_eq_next i s
  obtain ⟨hcursor, hack⟩ := (exec_stepCase i s t ht).cursor_and_ackarm_of_dataIndex? hi
  have hnack : t.ackarm = .nack := hack
  obtain ⟨u, hu⟩ := exec_eq_next j t
  obtain rfl : u = otherPath t := (exec_stepCase j t u hu).eq_otherPath_of_rejected (rejected_of_nack hj hnack)
  exact ⟨t, ht, hcursor, hnack, _, hu, fun S k => rfl, rfl, rfl, rfl, rfl⟩

/-- A data event does not leave the cursor at 255 with `ACK`: an advance to 255 arms `NACK` (D6). -/
theorem StepCase.not_terminal_and_ack {i : Instr} {s t : State} {x : Index} (h : StepCase s i t)
    (hx : dataIndex? i s = some x) : ¬(t.cursor = some 255#8 ∧ t.ackarm = .ack) := by
  obtain ⟨hcursor, hack⟩ := h.cursor_and_ackarm_of_dataIndex? hx
  rw [hcursor, hack, ackFor_eq_ack_iff, Option.some.injEq]
  exact fun ⟨hterminal, hne⟩ => hne hterminal

/-- Settles O52: which cases of a step end at 255 with `ACK`, and the data event that uses index 255. -/
theorem indexTwoFiftyFiveWraps : Obligations.IndexTwoFiftyFiveWraps := by
  refine ⟨fun i s t h hcursor hack => ?_, fun s v hc hack => ⟨fun hph => ?_, fun hph => ?_⟩⟩
  · have hcase : StepCase s i t := exec_stepCase i s t h
    cases hev : isEvent i with
    | false =>
      obtain ⟨hcv, hca, -, hack', -⟩ := registers_and_trace_of_host hev h
      exact .inr (.inr ⟨rfl, (cursor_congr hcv hca).symm.trans hcursor, hack'.symm.trans hack⟩)
    | true =>
      cases exec_stepCase i s t h with
      | rxOffset v hf hc =>
        obtain rfl : v = 255#8 := by simpa using hcursor
        exact .inl ⟨rfl, ((fitsRx_iff s).mp hf).1, hc⟩
      | addrR => exact .inr (.inl ⟨rfl, hcursor⟩)
      | rxData v idx hf hc =>
        exact absurd ⟨hcursor, hack⟩ (hcase.not_terminal_and_ack (dataIndex?_rxbyte v hf hc))
      | txAccepted hf => exact absurd ⟨hcursor, hack⟩ (hcase.not_terminal_and_ack (dataIndex?_txreq hf))
      | addrW | rxRejected v hf | txRejected hf | other => cases hcursor
      | hrdWm k | hwrWm k d | hrdRm k | hwrRm k d => simp at hev
  · obtain ⟨⟨t, ht, -, hcursor, hack'⟩, u, hu, hstored⟩ := endsIn_rxbyte_data v hph hc hack
    obtain rfl : t = u := Host.Outcome.next.inj (ht.symm.trans hu)
    exact ⟨t, ht, hstored, hcursor, hack'⟩
  · obtain ⟨⟨t, ht, -, hcursor, hack'⟩, u, hu, hsupplied⟩ := endsIn_txreq_accepted hph (txIndex_of_set hc) hack
    obtain rfl : t = u := Host.Outcome.next.inj (ht.symm.trans hu)
    exact ⟨t, ht, hsupplied, hcursor, hack'⟩

end Sys2Proof.Machine
end

section
/-! PROOF. Whole transactions (44_transactions.md): a transfer of any length in either direction from any base (R103 to
R106), and the offset that one transfer leaves to the next (R110, R111). -/

namespace Sys2Proof.Machine

/-! ### Runs -/

theorem runTrace_eq_next (is : List Instr) (s : State) : ∃ t, runTrace is s = .next t := by
  induction is generalizing s with
  | nil => exact ⟨s, rfl⟩
  | cons i is ih =>
    obtain ⟨u, hu⟩ := exec_eq_next i s
    obtain ⟨t, ht⟩ := ih u
    exact ⟨t, (runTrace_cons i is s u hu).trans ht⟩

/-- A run of two traces stops between them. -/
theorem runTrace_append_inv (is js : List Instr) (s t : State) (h : runTrace (is ++ js) s = .next t) :
    ∃ u, runTrace is s = .next u ∧ runTrace js u = .next t := by
  obtain ⟨u, hu⟩ := runTrace_eq_next is s
  exact ⟨u, hu, (runTrace_append is js s u hu).symm.trans h⟩

theorem runTrace_singleton (i : Instr) (s : State) : runTrace [i] s = exec i s := by
  obtain ⟨t, ht⟩ := exec_eq_next i s
  rw [runTrace_cons i [] s t ht, ht, runTrace_nil]

/-- A run whose last instruction is `i`. -/
theorem runTrace_concat_inv (is : List Instr) (i : Instr) (s t : State) (h : runTrace (is ++ [i]) s = .next t) :
    ∃ u, runTrace is s = .next u ∧ exec i u = .next t := by
  obtain ⟨u, hu, ht⟩ := runTrace_append_inv is [i] s t h
  exact ⟨u, hu, (runTrace_singleton i u).symm.trans ht⟩

/-- A run of host operations writes no register (R40, R96). -/
theorem runTrace_registers_of_host (is : List Instr) (s t : State) (hhost : ∀ x ∈ is, isEvent x = false)
    (h : runTrace is s = .next t) : t.registers = s.registers :=
  runTrace_keeps State.registers is s t (fun i hi u w => registers_of_host i u w (hhost i hi)) h

/-! ### One transfer, in either direction -/

/-- Where a transfer from base `a` in phase `p` stands after `n` data events: under way below the limit, at the terminal
index when it has just reached it, dropped beyond it (R104, R106). -/
structure AfterTransfer (p : Phase) (a : Byte) (n : Nat) (s : State) : Prop where
  below : n < acceptLimit a → s.ph = p ∧ s.cursor = some (offsetAt a n) ∧ s.ackarm = .ack
  full : n = acceptLimit a → s.ph = p ∧ s.cursor = some 255#8 ∧ s.ackarm = .nack
  beyond : acceptLimit a < n → s.ph = .idle ∧ s.cursor = none ∧ s.ackarm = .ack

/-- The data event `i` comes to `s` as number `n`, counted from 0, of a transfer from base `a` in phase `p`: it uses the
offset `n` places on, or comes too late and is rejected. -/
structure NextOfTransfer (p : Phase) (a : Byte) (n : Nat) (i : Instr) (s : State) : Prop where
  uses : n < acceptLimit a → s.ph = p ∧ dataIndex? i s = some (offsetAt a n)
  late : acceptLimit a ≤ n → rejected i s = true

/-- One more data event of a transfer (R77, R83, R89). -/
theorem StepCase.afterTransfer {p : Phase} {a : Byte} {n : Nat} {i : Instr} {s t : State} (h : StepCase s i t)
    (hnext : NextOfTransfer p a n i s) : AfterTransfer p a (n + 1) t := by
  obtain hlt | hle := Nat.lt_or_ge n (acceptLimit a)
  · obtain ⟨hph, hx⟩ := hnext.uses hlt
    obtain ⟨hcursor, hack⟩ := h.cursor_and_ackarm_of_dataIndex? hx
    have hph' : t.ph = p := (h.ph_of_accepted (accepted_of_dataIndex? hx)).trans hph
    simp only [ackFor_succ, offsetAt_eq_254_iff a n hlt] at hack
    rw [succ_offsetAt] at hcursor
    refine ⟨fun hbelow => ⟨hph', hcursor, ?_⟩, fun hfull => ⟨hph', ?_, ?_⟩, fun hbeyond => ?_⟩
    · rw [hack, if_neg hbelow.ne]
    · rw [hcursor, hfull, offsetAt_acceptLimit]
    · rw [hack, if_pos hfull]
    · omega
  · rw [h.eq_otherPath_of_rejected (hnext.late hle)]
    exact ⟨fun hbelow => by omega, fun hfull => by omega, fun _ => ⟨rfl, rfl, rfl⟩⟩

/-- From the limit on, a data event of the transfer finds `NACK` or another phase. -/
theorem AfterTransfer.not_fits {p : Phase} {a : Byte} {n : Nat} {s : State} (h : AfterTransfer p a n s)
    (hp : p ≠ .idle) (hle : acceptLimit a ≤ n) : ¬(s.ph = p ∧ s.ackarm = .ack) := by
  obtain hlt | heq := Nat.lt_or_eq_of_le hle
  · simp [(h.beyond hlt).1, hp.symm]
  · simp [(h.full heq.symm).2.2]

theorem AfterTransfer.next_rxbyte {a : Byte} {n : Nat} {s : State} (h : AfterTransfer .rx a n s) (v : Byte) :
    NextOfTransfer .rx a n (.rxbyte v) s where
  uses hlt := by
    obtain ⟨hph, hcursor, hack⟩ := h.below hlt
    exact ⟨hph, dataIndex?_rxbyte v ((fitsRx_iff s).mpr ⟨hph, hack⟩) hcursor⟩
  late hle := by simp [(fitsRx_eq_false_iff s).mpr (h.not_fits nofun hle)]

/-- The next request of a read uses the offset where the read stands, whether the cursor is set or, before the first
request, unset (R82). -/
theorem nextOfTransfer_txreq {a : Byte} {n : Nat} {s : State} (hph : s.ph = .tx) (hack : s.ackarm = .ack)
    (hidx : txIndex s = offsetAt a n) (hlt : n < acceptLimit a) : NextOfTransfer .tx a n .txreq s where
  uses _ := ⟨hph, by rw [dataIndex?_txreq ((fitsTx_iff s).mpr ⟨hph, hack⟩), hidx]⟩
  late hle := by omega

theorem AfterTransfer.next_txreq {a : Byte} {n : Nat} {s : State} (h : AfterTransfer .tx a n s) :
    NextOfTransfer .tx a n .txreq s := by
  obtain hlt | hle := Nat.lt_or_ge n (acceptLimit a)
  · obtain ⟨hph, hcursor, hack⟩ := h.below hlt
    exact nextOfTransfer_txreq hph hack (txIndex_of_set hcursor) hlt
  · exact ⟨fun hlt => by omega, fun _ => by simp [(fitsTx_eq_false_iff s).mpr (h.not_fits nofun hle)]⟩

/-! ### The sequential write (R103, R104) -/

/-- What the write of the bytes `bs` from base `a`, begun in `s`, has done when it stands in `t`. -/
structure Written (a : Byte) (bs : List Byte) (s t : State) : Prop where
  stored : ∀ (k : Nat) (h : k < bs.length), k < acceptLimit a → memRead .wm (offsetAt a k) t = bs[k]
  kept : ∀ x, (∀ k, k < bs.length → k < acceptLimit a → offsetAt a k ≠ x) → memRead .wm x t = memRead .wm x s
  rm : t.rm = s.rm
  txd : t.txd = s.txd
  hostResult : t.hostResult = s.hostResult
  trace : t.trace = s.trace
  after : AfterTransfer .rx a bs.length t

/-- `ADDR_W; RXBYTE a` begins a write. -/
theorem written_nil (a : Byte) (s : State) :
    Written a [] s { s with cv := true, ca := a, ph := .rx, ackarm := .ack } where
  stored k h := absurd h (Nat.not_lt_zero k)
  kept _ _ := rfl
  rm := rfl
  txd := rfl
  hostResult := rfl
  trace := rfl
  after := by
    have hpos : 1 ≤ acceptLimit a := acceptLimit_pos a
    refine ⟨fun _ => ⟨rfl, ?_, rfl⟩, fun hfull => ?_, fun hbeyond => ?_⟩
    · rw [List.length_nil, offsetAt_zero]
      rfl
    · simp only [List.length_nil] at hfull
      omega
    · simp at hbeyond

/-- What the next byte of a write does to an entry of `WM`: below the limit it is stored at the next offset, from the
limit on nothing is. -/
theorem NextOfTransfer.memRead_wm {a : Byte} {n : Nat} {v : Byte} {s t : State}
    (hnext : NextOfTransfer .rx a n (.rxbyte v) s) (h : StepCase s (.rxbyte v) t) (x : Index) :
    memRead .wm x t = if n < acceptLimit a ∧ offsetAt a n = x then v else memRead .wm x s := by
  rw [h.memRead_wm x]
  obtain hlt | hle := Nat.lt_or_ge n (acceptLimit a)
  · have hstore : rxStoreIndex? s = some (offsetAt a n) := (hnext.uses hlt).2
    by_cases hx : offsetAt a n = x <;> simp [wmWriteAt, hstore, hlt, hx]
  · have hf : fitsRx s = false := by simpa using hnext.late hle
    simp [wmWriteAt, rxStoreIndex?, hf, Nat.not_lt.mpr hle]

/-- One more byte of a write. -/
theorem Written.concat {a : Byte} {bs : List Byte} {b : Byte} {s t u : State} (h : Written a bs s t)
    (hstep : exec (.rxbyte b) t = .next u) : Written a (bs ++ [b]) s u := by
  have hcase : StepCase t (.rxbyte b) u := exec_stepCase _ t u hstep
  have hnext : NextOfTransfer .rx a bs.length (.rxbyte b) t := h.after.next_rxbyte b
  obtain ⟨-, -, -, htxd, hres, htr, -⟩ := rxbyteFrame b t u hstep
  refine ⟨fun k hk hlim => ?_, fun x hx => ?_, (hcase.rm_of_event rfl).trans h.rm, htxd.trans h.txd,
    hres.trans h.hostResult, htr.trans h.trace, ?_⟩
  · rw [hnext.memRead_wm hcase]
    rw [List.length_append, List.length_singleton, Nat.lt_succ_iff_lt_or_eq] at hk
    obtain hk | rfl := hk
    · have hne : ¬(bs.length < acceptLimit a ∧ offsetAt a bs.length = offsetAt a k) := by
        rintro ⟨hlt, heq⟩
        have hle : acceptLimit a ≤ 256 := acceptLimit_le a
        have := offsetAt_inj a bs.length k (by omega) (by omega) heq
        omega
      rw [if_neg hne, h.stored k hk hlim, List.getElem_append_left]
    · simp [hlim]
  · have hne : ¬(bs.length < acceptLimit a ∧ offsetAt a bs.length = x) := fun ⟨hlt, heq⟩ =>
      hx bs.length (by simp) hlt heq
    rw [hnext.memRead_wm hcase, if_neg hne]
    exact h.kept x fun k hk => hx k (by rw [List.length_append]; omega)
  · rw [List.length_append]
    exact hcase.afterTransfer hnext

/-- A write of any length, by induction on the bytes from the last one back. -/
theorem runTrace_pseudoWrite (a : Byte) (bs : List Byte) (s : State) :
    ∃ t, runTrace (pseudoWrite a bs) s = .next t ∧ Written a bs s t := by
  induction bs using List.reverseRecOn with
  | nil => exact ⟨_, runTrace_pseudoSetoff a s, written_nil a s⟩
  | append_singleton bs b ih =>
    obtain ⟨t, ht, hw⟩ := ih
    obtain ⟨u, hu⟩ := exec_eq_next (.rxbyte b) t
    refine ⟨u, ?_, hw.concat hu⟩
    have hsplit : pseudoWrite a (bs ++ [b]) = pseudoWrite a bs ++ [.rxbyte b] := by simp [pseudoWrite]
    rw [hsplit, runTrace_append _ _ s t ht, runTrace_singleton, hu]

/-- Settles O47: the write, clause by clause. -/
theorem sequentialWrite : Obligations.SequentialWrite := by
  intro s a bs
  obtain ⟨t, ht, hw⟩ := runTrace_pseudoWrite a bs s
  exact ⟨t, ht, hw.stored, hw.kept, hw.rm, hw.txd, hw.hostResult, hw.trace, hw.after.below, hw.after.full,
    hw.after.beyond⟩

/-! ### The sequential read (R105, R106) -/

/-- An entry of `RM` the host does not write in a run reads after it as before. -/
theorem latestRmWrite_of_not_mem (k : Index) (is : List Instr) (b : Byte) (h : ∀ d, .hwrRm k d ∉ is) :
    latestRmWrite k is b = b := by
  induction is with
  | nil => rfl
  | cons i is ih =>
    have htail : latestRmWrite k is b = b := ih fun d hd => h d (List.mem_cons_of_mem i hd)
    cases i with
    | hwrRm x d =>
      have hne : x ≠ k := by
        rintro rfl
        exact h d List.mem_cons_self
      simpa [latestRmWrite, hne] using htail
    | _ => exact htail

theorem memRead_rm_of_not_mem (is : List Instr) (s t : State) (k : Index) (hrun : runTrace is s = .next t)
    (h : ∀ d, .hwrRm k d ∉ is) : memRead .rm k t = memRead .rm k s := by
  rw [readMemoryHoldsTheLatestHostWrite is s t k hrun, latestRmWrite_of_not_mem k is _ h]

/-- The same arrays and the same fields of the model's own: what the events of a read leave to the host (R84). -/
def SameStore (s u : State) : Prop :=
  s.wm = u.wm ∧ s.rm = u.rm ∧ s.hostResult = u.hostResult ∧ s.trace = u.trace

/-- The events but `RXBYTE` leave the arrays and the model's own fields. -/
theorem sameStore_of_event {i : Instr} {s t : State} (h : exec i s = .next t) (hi : isEvent i = true)
    (hne : ∀ v, i ≠ .rxbyte v) : SameStore t s := by
  have hcase : StepCase s i t := exec_stepCase i s t h
  exact ⟨hcase.wm_of_event hi hne, hcase.rm_of_event hi, hcase.hostResult_of_event hi, trace_of_exec h⟩

/-- A host operation does the same to two states alike. -/
theorem SameStore.host {i : Instr} {s t u : State} (h : SameStore s u) (hi : isEvent i = false)
    (hstep : exec i s = .next t) : ∃ w, exec i u = .next w ∧ SameStore t w := by
  obtain ⟨hwm, hrm, -, htr⟩ := h
  obtain ⟨t', w, ht', hw, hframe, -⟩ := exec_host_congr i s u hi hwm hrm
  obtain rfl : t = t' := Host.Outcome.next.inj (hstep.symm.trans ht')
  refine ⟨w, hw, ?_, ?_, ?_, ?_⟩
  · rw [hframe]
  · rw [hframe]
  · rw [hframe]
  · rw [trace_of_exec hstep, trace_of_exec hw, htr]

/-- A run of requests and host operations leaves the arrays as the host's operations alone do. -/
theorem SameStore.hostSteps (is : List Instr) (s t u : State) (h : SameStore s u)
    (his : ∀ x ∈ is, x = .txreq ∨ isEvent x = false) (hrun : runTrace is s = .next t) :
    ∃ w, runTrace (hostSteps is) u = .next w ∧ SameStore t w := by
  induction is generalizing s u with
  | nil => cases hrun; exact ⟨u, rfl, h⟩
  | cons i is ih =>
    obtain ⟨s', hs', hrest⟩ := runTrace_cons_inv i is s t hrun
    have his' : ∀ x ∈ is, x = .txreq ∨ isEvent x = false := fun x hx => his x (List.mem_cons_of_mem i hx)
    rw [← List.singleton_append, hostSteps_append]
    obtain rfl | hhost := his i List.mem_cons_self
    · obtain ⟨hwm, hrm, hres, htr⟩ := sameStore_of_event hs' rfl nofun
      obtain ⟨hwm', hrm', hres', htr'⟩ := h
      rw [hostSteps_event .txreq rfl, List.nil_append]
      exact ih s' u ⟨hwm.trans hwm', hrm.trans hrm', hres.trans hres', htr.trans htr'⟩ his' hrest
    · obtain ⟨u', hu', hsame⟩ := h.host hhost hs'
      rw [hostSteps_host i hhost, List.singleton_append, runTrace_cons i _ u u' hu']
      exact ih s' u' hsame his' hrest

/-- Where a read from base `a`, begun in `s`, stands after `n` requests: what the next request does and, after the first
one, how the transfer stands and the byte last supplied. -/
structure Served (a : Byte) (n : Nat) (s t : State) : Prop where
  next : NextOfTransfer .tx a n .txreq t
  after : 1 ≤ n → AfterTransfer .tx a n t
  txd : 1 ≤ n → t.txd = memRead .rm (offsetAt a (min n (acceptLimit a) - 1)) s

/-- `ADDR_R` begins a read at the cursor, or at 0 when it is unset (R80, R82). -/
theorem served_zero {s t : State} (h : exec .addrR s = .next t) : Served (txIndex s) 0 s t where
  next := by
    obtain rfl : t = readdress .tx s := by cases exec_stepCase .addrR s t h; rfl
    exact nextOfTransfer_txreq rfl rfl (offsetAt_zero (txIndex s)).symm (acceptLimit_pos _)
  after hn := absurd hn (by decide)
  txd hn := absurd hn (by decide)

/-- A host operation moves no part of a read. -/
theorem Served.host {a : Byte} {n : Nat} {i : Instr} {s t u : State} (h : Served a n s t) (hi : isEvent i = false)
    (hstep : exec i t = .next u) : Served a n s u := by
  obtain ⟨u', w, hu', -, hframe, -⟩ := exec_host_congr i t t hi rfl rfl
  obtain rfl : u = u' := Host.Outcome.next.inj (hstep.symm.trans hu')
  rw [hframe]
  exact {
    next := ⟨h.next.uses, h.next.late⟩
    after hn := ⟨(h.after hn).below, (h.after hn).full, (h.after hn).beyond⟩
    txd := h.txd }

/-- One more request of a read, the entry it reads being as it was at the start. -/
theorem Served.txreq {a : Byte} {n : Nat} {s t u : State} (h : Served a n s t) (hstep : exec .txreq t = .next u)
    (hkept : n < acceptLimit a → memRead .rm (offsetAt a n) t = memRead .rm (offsetAt a n) s) :
    Served a (n + 1) s u := by
  have hcase : StepCase t .txreq u := exec_stepCase _ t u hstep
  have hafter : AfterTransfer .tx a (n + 1) u := hcase.afterTransfer h.next
  refine ⟨hafter.next_txreq, fun _ => hafter, fun _ => ?_⟩
  obtain hlt | hle := Nat.lt_or_ge n (acceptLimit a)
  · rw [hcase.txd_of_dataIndex? (h.next.uses hlt).2, hkept hlt, Nat.min_eq_left hlt, Nat.succ_sub_one]
  · have hpos : 1 ≤ acceptLimit a := acceptLimit_pos a
    have hf : fitsTx t = false := by simpa using h.next.late hle
    rw [hcase.txd_of_no_accepted_txreq fun _ => hf, h.txd (by omega), Nat.min_eq_right hle, Nat.min_eq_right (by omega)]

/-- A read of any length with host operations between, by induction on its steps from the last one back; `N` bounds the
requests, so that the entries the host leaves alone do not change with the trace. -/
theorem served_of_run (N : Nat) (is : List Instr) (s t : State) (his : ∀ x ∈ is, x = .txreq ∨ isEvent x = false)
    (hN : is.count .txreq ≤ N)
    (hkeep : ∀ k d, k < N → k < acceptLimit (txIndex s) → .hwrRm (offsetAt (txIndex s) k) d ∉ is)
    (hrun : runTrace (.addrR :: is) s = .next t) : Served (txIndex s) (is.count .txreq) s t := by
  induction is using List.reverseRecOn generalizing t with
  | nil => exact served_zero ((runTrace_singleton .addrR s).symm.trans hrun)
  | append_singleton is x ih =>
    rw [← List.cons_append] at hrun
    obtain ⟨u, hu, hstep⟩ := runTrace_concat_inv _ x s t hrun
    rw [List.count_append] at hN ⊢
    have hkeep' : ∀ k d, k < N → k < acceptLimit (txIndex s) → .hwrRm (offsetAt (txIndex s) k) d ∉ is :=
      fun k d hk hlim hmem => hkeep k d hk hlim (List.mem_append_left [x] hmem)
    have hserved := ih u (fun y hy => his y (List.mem_append_left [x] hy)) (by omega) hkeep' hu
    obtain rfl | hhost := his x (by simp)
    · rw [List.count_singleton_self] at hN ⊢
      refine hserved.txreq hstep fun hlim => memRead_rm_of_not_mem _ s u _ hu fun d hmem => ?_
      obtain hmem | hmem := List.mem_cons.mp hmem
      · cases hmem
      · exact hkeep' _ d (by omega) hlim hmem
    · have hne : x ≠ .txreq := by
        rintro rfl
        cases hhost
      rw [List.count_singleton, if_neg (by simpa using hne)]
      exact hserved.host hhost hstep

theorem txIndex_eq_getD (s : State) : txIndex s = s.cursor.getD 0#8 := by
  cases hc : s.cursor with
  | none => exact txIndex_of_unset hc
  | some i => exact txIndex_of_set hc

/-- Settles O48: the control state and `TXD` follow the requests, the arrays follow the host. -/
theorem sequentialRead : Obligations.SequentialRead := by
  rintro s a is n ha his rfl hn hkeep
  obtain rfl : a = txIndex s := ha.trans (txIndex_eq_getD s).symm
  obtain ⟨t, ht⟩ := runTrace_eq_next (.addrR :: is) s
  obtain ⟨s', hs', hrest⟩ := runTrace_cons_inv .addrR is s t ht
  obtain ⟨u, hu, hwm, hrm, hres, htr⟩ :=
    (sameStore_of_event hs' rfl nofun).hostSteps is s' t s his hrest
  have hserved := served_of_run _ is s t his le_rfl hkeep ht
  have hpos : 1 ≤ acceptLimit (txIndex s) := acceptLimit_pos _
  refine ⟨t, u, ht, hu, hwm, hrm, hres, htr, fun hle => ?_, fun hle => ?_, (hserved.after hn).below,
    (hserved.after hn).full, (hserved.after hn).beyond⟩
  · rw [hserved.txd hn, Nat.min_eq_left hle]
  · rw [hserved.txd hn, Nat.min_eq_right hle, (offsetAt_eq_254_iff (txIndex s) _ (by omega)).mpr (by omega)]

/-! ### What one transfer leaves to the next (R110, R111) -/

/-- A read of one byte supplies it from the cursor, or from index 0 when it is unset, in every state. -/
theorem txd_of_pseudoRead_one (s : State) :
    ∃ t, runTrace (pseudoRead 1) s = .next t ∧ t.txd = memRead .rm (txIndex s) s := by
  obtain ⟨t, ht⟩ := runTrace_eq_next (pseudoRead 1) s
  have hserved : Served (txIndex s) 1 s t :=
    served_of_run 1 [.txreq] s t (by simp) le_rfl (by simp) ht
  have hmin : min 1 (acceptLimit (txIndex s)) = 1 := Nat.min_eq_left (acceptLimit_pos _)
  refine ⟨t, ht, ?_⟩
  rw [hserved.txd le_rfl, hmin, offsetAt_zero]

/-- A read of one byte after any run. -/
theorem txd_of_run_pseudoRead_one (is : List Instr) (s t : State) (x : Index) (h : runTrace is s = .next t)
    (hx : txIndex t = x) (hrm : memRead .rm x t = memRead .rm x s) :
    ∃ u, runTrace (is ++ pseudoRead 1) s = .next u ∧ u.txd = memRead .rm x s := by
  obtain ⟨u, hu, htxd⟩ := txd_of_pseudoRead_one t
  exact ⟨u, (runTrace_append is _ s t h).trans hu, by rw [htxd, hx, hrm]⟩

/-- Settles O49: the receiver phase leaves the cursor at the offset, `ADDR_R` keeps it, `OTHER` clears it. -/
theorem offsetCarriesOverIntoRead : Obligations.OffsetCarriesOverIntoRead := by
  intro s a
  have hset := runTrace_pseudoSetoff a s
  refine ⟨?_, txd_of_run_pseudoRead_one _ s _ a hset rfl rfl, ?_⟩
  · rw [runTrace_append _ _ _ _ hset, runTrace_singleton, addrRKeepsCursorAndEntersTransmit]
  · have hend := (runTrace_append _ pseudoEnd _ _ hset).trans (runTrace_singleton .other _)
    rw [otherResetsCursorAndPhase] at hend
    exact txd_of_run_pseudoRead_one _ s _ 0#8 hend rfl rfl

/-- Settles O50: the write and the earlier read leave the cursor where they stopped, and write no entry of `RM`. -/
theorem readContinuesWhereTheLastTransferStopped : Obligations.ReadContinuesWhereTheLastTransferStopped := by
  refine ⟨fun s a bs hlt => ?_, fun s a k hc hlt => ?_⟩
  · obtain ⟨t, ht, hw⟩ := runTrace_pseudoWrite a bs s
    obtain ⟨-, hcursor, -⟩ := hw.after.below hlt
    exact txd_of_run_pseudoRead_one _ s t _ ht (txIndex_of_set hcursor) (memRead_congr .rm _ t s hw.rm)
  · obtain rfl : txIndex s = a := txIndex_of_set hc
    obtain ⟨t, ht⟩ := runTrace_eq_next (pseudoRead k) s
    have hserved := served_of_run k (requests k) s t (by simp [requests]) (by simp [requests]) (by simp [requests]) ht
    rw [requests, List.count_replicate_self] at hserved
    have hidx : txIndex t = offsetAt (txIndex s) k := by
      have hx : dataIndex? .txreq t = some (offsetAt (txIndex s) k) := (hserved.next.uses hlt).2
      have hf : fitsTx t = true := accepted_of_dataIndex? hx
      simpa [hf] using hx
    have hevents : ∀ x ∈ pseudoRead k, isEvent x = true := by simp [pseudoRead, requests]
    obtain ⟨-, -, hrm⟩ := arraysShareNoStorage
    exact txd_of_run_pseudoRead_one _ s t _ ht hidx (hrm _ s t hevents ht _)

/-- After an `OTHER` has ended the receiver phase, only another addressing event lets an `ADDR_R` come (log entry 9). -/
theorem noOtherAcrossRestartFrom_endedByOther (is : List Instr) (his : ∀ x ∈ is, x = .other ∨ isEvent x = false) :
    noOtherAcrossRestartFrom .endedByOther (is ++ [.addrR]) = false := by
  induction is with
  | nil => rfl
  | cons i is ih =>
    have htail := ih fun x hx => his x (List.mem_cons_of_mem i hx)
    obtain rfl | hhost := his i List.mem_cons_self
    · exact htail
    · cases i with
      | hrdWm k | hwrWm k d | hrdRm k | hwrRm k d => exact htail
      | _ => simp at hhost

/-- With no `OTHER` across the restart, only the host is at work between the two phases. -/
theorem isEvent_of_noOtherAcrossRestartFrom (is : List Instr) (his : ∀ x ∈ is, x = .other ∨ isEvent x = false)
    (h : noOtherAcrossRestartFrom .receiver (is ++ [.addrR]) = true) : ∀ x ∈ is, isEvent x = false := by
  induction is with
  | nil => simp
  | cons i is ih =>
    have his' : ∀ x ∈ is, x = .other ∨ isEvent x = false := fun x hx => his x (List.mem_cons_of_mem i hx)
    obtain rfl | hhost := his i List.mem_cons_self
    · exact absurd ((noOtherAcrossRestartFrom_endedByOther is his').symm.trans h) (by decide)
    · refine List.forall_mem_cons.mpr ⟨hhost, ih his' ?_⟩
      cases i with
      | hrdWm k | hwrWm k d | hrdRm k | hwrRm k d => exact h
      | _ => simp at hhost

/-- Settles O43: what stands between is the host's alone, and neither the host nor `ADDR_R` moves the cursor. -/
theorem offsetSurvivesWithoutOtherAcrossRestart : Obligations.OffsetSurvivesWithoutOtherAcrossRestart := by
  intro between s t a his hno hrun
  have hhost : ∀ x ∈ between, isEvent x = false := isEvent_of_noOtherAcrossRestartFrom between his hno
  obtain ⟨u, hu, hstep⟩ := runTrace_concat_inv _ .addrR s t hrun
  rw [runTrace_append _ _ _ _ (runTrace_pseudoSetoff a s)] at hu
  obtain ⟨hcv, hca, -⟩ := (registers_eq_iff _ u).mp (runTrace_registers_of_host between _ u hhost hu)
  cases exec_stepCase .addrR u t hstep
  exact ⟨rfl, cursor_congr hcv hca, rfl⟩

end Sys2Proof.Machine
end

section
/-! PROOF. Error conditions (60_exceptions.md): nothing the block does faults or stops (R114), and the three error
classes, which are resolved locally and never meet in one event (R115, R119). -/

namespace Sys2Proof.Machine

/-! ### No fault and no stuck state (R114) -/

theorem step_eq_next (s : State) : ∃ t, step s = .next t := by
  cases hw : nextWord s with
  | none => exact ⟨s, step_of_no_word s hw⟩
  | some p =>
    obtain ⟨w, rest⟩ := p
    obtain ⟨t, ht⟩ := exec_eq_next (decode w) (s.setTrace rest)
    exact ⟨t, (step_of_word s w rest hw).trans ht⟩

theorem core_run_eq_next (k : Nat) (s : State) : ∃ t, Host.Core.run Sys2Proof.core k s = .next t := by
  induction k generalizing s with
  | zero => exact ⟨s, rfl⟩
  | succ k ih =>
    obtain ⟨u, hu⟩ := step_eq_next s
    obtain ⟨t, ht⟩ := ih u
    exact ⟨t, (core_run_succ k s u hu).trans ht⟩

/-- Settles O8: an instruction by its cases, a step by the word it takes, a run by induction on its length. -/
theorem blockNeverStops : Obligations.BlockNeverStops :=
  ⟨exec_eq_next, step_eq_next, core_run_eq_next⟩

/-! ### The class unexpected-event (R115) -/

/-- A data event in the wrong phase does not fit, so an unexpected event is `OTHER` itself or a rejected one. -/
theorem eq_other_or_rejected_of_unexpectedEvent {i : Instr} {s : State} (h : unexpectedEvent i s = true) :
    i = .other ∨ rejected i s = true := by
  cases i with
  | other => exact .inl rfl
  | rxbyte v =>
    have hph : s.ph ≠ .rx := bne_iff_ne.mp h
    exact .inr (by simp [fitsRx, hph])
  | txreq =>
    have hph : s.ph ≠ .tx := bne_iff_ne.mp h
    exact .inr (by simp [fitsTx, hph])
  | _ => cases h

theorem exec_eq_other_of_rejected {i : Instr} {s : State} (h : rejected i s = true) : exec i s = exec .other s := by
  obtain ⟨t, ht⟩ := exec_eq_next i s
  rw [ht, (exec_stepCase i s t ht).eq_otherPath_of_rejected h]
  rfl

theorem dataIndex?_of_rejected {i : Instr} {s : State} (h : rejected i s = true) : dataIndex? i s = none := by
  cases i with
  | rxbyte v =>
    have hf : fitsRx s = false := by simpa using h
    simp [rxStoreIndex?, hf]
  | txreq =>
    have hf : fitsTx s = false := by simpa using h
    simp [hf]
  | _ => rfl

/-- An unexpected event touches no array (R120). -/
theorem dataIndex?_of_unexpectedEvent {i : Instr} {s : State} (h : unexpectedEvent i s = true) :
    dataIndex? i s = none := by
  obtain rfl | hrej := eq_other_or_rejected_of_unexpectedEvent h
  · rfl
  · exact dataIndex?_of_rejected hrej

/-! ### The classes buffer-boundary and stale-offset (R115) -/

theorem bufferBoundary_iff (i : Instr) (s : State) : bufferBoundary i s = true ↔ dataIndex? i s = some 254#8 :=
  beq_iff_eq

theorem staleOffset_iff (i : Instr) (s : State) :
    staleOffset i s = true ↔ i = .txreq ∧ fitsTx s = true ∧ s.cursor = none := by
  cases i <;> simp [staleOffset]

/-- A stale offset is tolerated by the default: the `TXREQ` uses index 0 (R82). -/
theorem dataIndex?_of_staleOffset {i : Instr} {s : State} (h : staleOffset i s = true) :
    dataIndex? i s = some 0#8 := by
  obtain ⟨rfl, hf, hc⟩ := (staleOffset_iff i s).mp h
  rw [dataIndex?_txreq hf, txIndex_of_unset hc]

/-- Settles O40: an unexpected event does the Other path, the other two classes advance the cursor from the index they
use; no two meet because the first uses no index, the second 254 and the third 0. -/
theorem errorClassesAreResolvedLocally : Obligations.ErrorClassesAreResolvedLocally := by
  intro i s
  obtain ⟨t, ht⟩ := exec_eq_next i s
  have hcase : StepCase s i t := exec_stepCase i s t ht
  rw [bufferBoundary_iff]
  refine ⟨fun h => ?unexpected, fun h => ⟨t, ht, hcase.cursor_and_ackarm_of_dataIndex? h⟩, fun h => ?stale,
    fun ⟨h₁, h₂⟩ => ?unexpectedBoundary, fun ⟨h₁, h₃⟩ => ?unexpectedStale, fun ⟨h₂, h₃⟩ => ?boundaryStale⟩
  case unexpected =>
    obtain rfl | hrej := eq_other_or_rejected_of_unexpectedEvent h
    · rfl
    · exact exec_eq_other_of_rejected hrej
  case stale =>
    have hx : dataIndex? i s = some 0#8 := dataIndex?_of_staleOffset h
    obtain ⟨rfl, -, -⟩ := (staleOffset_iff i s).mp h
    exact ⟨t, ht, hcase.txd_of_dataIndex? hx, hcase.cursor_and_ackarm_of_dataIndex? hx⟩
  case unexpectedBoundary => cases (dataIndex?_of_unexpectedEvent h₁).symm.trans h₂
  case unexpectedStale => cases (dataIndex?_of_unexpectedEvent h₁).symm.trans (dataIndex?_of_staleOffset h₃)
  case boundaryStale => exact absurd (h₂.symm.trans (dataIndex?_of_staleOffset h₃)) (by decide)

end Sys2Proof.Machine
end

section
/-! PROOF. Hazards (70_reset_and_hazards.md): the cursor outlives a transaction (R140), except where every transaction
end raises `OTHER`, an assumption on the bus controller (D12). -/

namespace Sys2Proof.Machine

/-- While no transaction is open, the block is idle with the cursor unset. -/
def IdleUnlessOpen (isOpen : Bool) (s : State) : Prop :=
  isOpen = false → s.ph = .idle ∧ s.cursor = none

theorem idleUnlessOpen_otherPath (isOpen : Bool) (s : State) : IdleUnlessOpen isOpen (otherPath s) :=
  fun _ => ⟨rfl, rfl⟩

theorem IdleUnlessOpen.congr {isOpen : Bool} {s t : State} (h : IdleUnlessOpen isOpen s) (hph : t.ph = s.ph)
    (hc : t.cursor = s.cursor) : IdleUnlessOpen isOpen t := by
  rwa [IdleUnlessOpen, hph, hc]

/-- Outside the phase `IDLE` a transaction is open, so nothing is asked of the state that follows. -/
theorem IdleUnlessOpen.of_ph_ne_idle {isOpen : Bool} {s : State} (h : IdleUnlessOpen isOpen s) (hph : s.ph ≠ .idle)
    (t : State) : IdleUnlessOpen isOpen t :=
  fun hclosed => absurd (h hclosed).1 hph

/-- Each step leaves the block idle unless a transaction is open after it, and the rest of the trace still raises
`OTHER` at every transaction end from there. -/
theorem StepCase.endRaisesOtherFrom_tail {isOpen : Bool} {i : Instr} {is : List Instr} {s t : State}
    (h : StepCase s i t) (hidle : IdleUnlessOpen isOpen s) (hend : endRaisesOtherFrom isOpen (i :: is) = true) :
    ∃ isOpen', IdleUnlessOpen isOpen' t ∧ endRaisesOtherFrom isOpen' is = true := by
  cases h with
  | addrW | addrR =>
    simp only [endRaisesOtherFrom, Bool.and_eq_true] at hend
    exact ⟨true, nofun, hend.2⟩
  | other => exact ⟨false, idleUnlessOpen_otherPath false s, hend⟩
  | rxOffset v hf hc | rxData v idx hf hc => exact ⟨isOpen, hidle.of_ph_ne_idle (ph_ne_idle_of_fitsRx hf) _, hend⟩
  | txAccepted hf => exact ⟨isOpen, hidle.of_ph_ne_idle (ph_ne_idle_of_fitsTx hf) _, hend⟩
  | rxRejected v hf | txRejected hf => exact ⟨isOpen, idleUnlessOpen_otherPath isOpen s, hend⟩
  | hrdWm k | hwrWm k d | hrdRm k | hwrRm k d => exact ⟨isOpen, hidle.congr rfl rfl, hend⟩

/-- Under `EndRaisesOther` the `ADDR_R` that a trace comes to finds no transaction open, so it finds the block idle with
the cursor unset. -/
theorem idle_and_unset_of_endRaisesOtherFrom (is : List Instr) (isOpen : Bool) (s t : State)
    (hidle : IdleUnlessOpen isOpen s) (hend : endRaisesOtherFrom isOpen (is ++ [.addrR]) = true)
    (hrun : runTrace is s = .next t) : t.ph = .idle ∧ t.cursor = none := by
  induction is generalizing isOpen s with
  | nil =>
    cases hrun
    exact hidle (by simpa [endRaisesOtherFrom] using hend)
  | cons i is ih =>
    obtain ⟨u, hu, hrest⟩ := runTrace_cons_inv i is s t hrun
    obtain ⟨isOpen', hidle', hend'⟩ := (exec_stepCase i s u hu).endRaisesOtherFrom_tail hidle hend
    exact ih isOpen' u hidle' hend' hrest

/-- Settles O42: the trace leaves the cursor unset for the `ADDR_R`, which keeps it. -/
theorem noStaleCursorWhenEndsRaiseOther : Obligations.NoStaleCursorWhenEndsRaiseOther := by
  intro is s t hph hc hend hrun
  obtain ⟨u, hu, hstep⟩ := runTrace_concat_inv is .addrR s t hrun
  obtain ⟨-, hunset⟩ := idle_and_unset_of_endRaisesOtherFrom is false s u (fun _ => ⟨hph, hc⟩) hend hu
  cases exec_stepCase .addrR u t hstep
  exact ⟨rfl, hunset⟩

end Sys2Proof.Machine
end
